-- ==== Sys2Proof/Word.lean ====
section
/-! DEFINITION. The word, the byte and the register index of the hardware, and the two readings of a word
(00_scope.md R10, R11). -/

namespace Sys2Proof

/-- One byte of the data memory, a number in [0, 256) (R61). -/
abbrev Byte := BitVec 8

/-- A 32-bit unsigned word: every register, operand, result, address and instruction (R8 `XLEN`, `ILEN`; R11). -/
abbrev Word := BitVec 32

/-- A 5-bit register field: every lane an instruction can name is in [0, 31] (R21, R111). -/
abbrev RegIdx := BitVec 5

/-- `u32(v) = v mod 2^32` for any integer `v` (R11). -/
def u32 (v : Int) : Word := BitVec.ofInt 32 v

/-- `signed(v)`: the two's-complement reading of a word (R11, R155). -/
def signed (v : Word) : Int := v.toInt

end Sys2Proof
end

