-- ==== Sys2Proof/Config.lean ====
section
/-! DEFINITION. What an implementation fixes (00_scope.md R8; 92_eei_decisions.md, open parameters), and the one value
the spec leaves open. -/

namespace Sys2Proof

/-- `DMEM_BYTES`, default capacity of the data memory in bytes (R8, R61). The capacity in use is `State.dmemBytes`. -/
def Config.defaultDmemBytes : Nat := 4096

/-- Upper bound of `DMEM_BYTES` (R8: `1 <= DMEM_BYTES <= 2^32`). -/
def Config.maxDmemBytes : Nat := 2 ^ 32

/-- `MAX_CYCLES`, the default cycle cap of the run loop (R8, R267). -/
def Config.defaultMaxCycles : Nat := 1000

/-- A loaded program has fewer words than this (R8: `0 <= N < 2^30`). -/
def Config.programWordsBound : Nat := 2 ^ 30

/-- FREE VALUE: what the ALU's `result` port carries while `div_by_zero` is 1 (40_alu.md R140 "result has no meaning
and must not be used"; U15 "any value"). The first argument tells REM (true) from DIV (false), the second is `a`.
No body: nothing can be proved of it. Only the port form of the ALU reads it (log entry 18). -/
opaque Config.resultOnZeroDivisor : Bool → Word → Word

end Sys2Proof
end

