-- ==== Sys2Proof/Syntax.lean ====
section
/-! DEFINITION. The instruction set as syntax: formats, mnemonics, the instructions (one constructor for each row of
spec/opcode_table.json), a column of a bit layout, the lookup key of a row, and the decoded record (30_encoding.md R91,
R103, R106, R110, R113). -/

namespace Sys2Proof

/-- The five instruction formats (30_encoding.md R90). -/
inductive Format where
  | r | i | s | b | j
  deriving DecidableEq, Repr

/-- The closed set of mnemonic tags (R110): the 20 of R104. The tag `unknown` is `Decoded.unknown`. -/
inductive Mnemonic where
  | add | sub | and | or | xor | sll | srl | mul | div | rem
  | addi | lw | jalr
  | sw
  | beq | bne | blt | bge
  | jal | j
  deriving DecidableEq, Repr

/-- The instructions, one constructor per row of the opcode table, with the operands present in the row's format
(R106: R has rd rs1 rs2; I has rd rs1 imm; S and B have rs1 rs2 imm; J has rd imm, and the row `j` fixes `rd = 0`, R108).
An immediate is the signed mathematical integer of the decoded record (R101). -/
inductive Instr where
  | add (rd rs1 rs2 : RegIdx)
  | sub (rd rs1 rs2 : RegIdx)
  | and (rd rs1 rs2 : RegIdx)
  | or (rd rs1 rs2 : RegIdx)
  | xor (rd rs1 rs2 : RegIdx)
  | sll (rd rs1 rs2 : RegIdx)
  | srl (rd rs1 rs2 : RegIdx)
  | mul (rd rs1 rs2 : RegIdx)
  | div (rd rs1 rs2 : RegIdx)
  | rem (rd rs1 rs2 : RegIdx)
  | addi (rd rs1 : RegIdx) (imm : Int)
  | lw (rd rs1 : RegIdx) (imm : Int)
  | jalr (rd rs1 : RegIdx) (imm : Int)
  | sw (rs1 rs2 : RegIdx) (imm : Int)
  | beq (rs1 rs2 : RegIdx) (imm : Int)
  | bne (rs1 rs2 : RegIdx) (imm : Int)
  | blt (rs1 rs2 : RegIdx) (imm : Int)
  | bge (rs1 rs2 : RegIdx) (imm : Int)
  | jal (rd : RegIdx) (imm : Int)
  | j (imm : Int)
  deriving DecidableEq, Repr

/-- The fields a format places in a word (R91 to R96). -/
inductive FieldName where
  | opcode | rd | funct3 | rs1 | rs2 | funct7 | imm
  deriving DecidableEq, Repr

/-- One column of a format's bit layout: bits `lo + width - 1 : lo` of a field stand at bits `pos + width - 1 : pos` of the
word (R92 to R96). -/
structure Segment where
  field : FieldName
  pos : Nat
  width : Nat
  lo : Nat
  deriving DecidableEq, Repr

/-- The lookup key of one row of the opcode map (R103, R104). A field the row does not look at is `none`; `rdIsZero`
tells the J rows `jal` (`rd != 0`) and `j` (`rd = 0`) apart (R108). -/
structure OpKey where
  opcode : BitVec 7
  funct3 : Option (BitVec 3)
  funct7 : Option (BitVec 7)
  rdIsZero : Option Bool
  deriving DecidableEq, Repr

/-- The raw fields every decoded word keeps for diagnostics (R91, R106). -/
structure Raw where
  opcode : BitVec 7
  funct3 : BitVec 3
  funct7 : BitVec 7
  deriving DecidableEq, Repr

/-- The result of decoding a word (R105): a known instruction, or the Unknown marker carrying the raw fields (R113). -/
inductive Decoded where
  | known (i : Instr) (raw : Raw)
  | unknown (raw : Raw)
  deriving DecidableEq, Repr

end Sys2Proof
end

