-- ==== Sys2Proof/WellFormed.lean ====
section
/-! DEFINITION. Which instructions are well formed (30_encoding.md R115): the immediate in the range of its format and,
for B and J, even; `rd != 0` for `jal`. Registers are 5-bit fields, so they are in [0, 31] by their type. -/

namespace Sys2Proof

/-- The range of an I or S immediate (R97, R98). -/
def immFits12 (imm : Int) : Bool := decide (-2048 ≤ imm) && decide (imm ≤ 2047)

/-- The range of a B immediate, and that it is even (R99). -/
def immFits13 (imm : Int) : Bool := decide (-4096 ≤ imm) && decide (imm ≤ 4094) && decide (imm % 2 = 0)

/-- The range of a J immediate, and that it is even (R100). -/
def immFits21 (imm : Int) : Bool := decide (-1048576 ≤ imm) && decide (imm ≤ 1048574) && decide (imm % 2 = 0)

/-- Every operand is in the range of its field (R115). -/
def Instr.operandsFit : Instr → Bool
  | .add _ _ _ => true
  | .sub _ _ _ => true
  | .and _ _ _ => true
  | .or _ _ _ => true
  | .xor _ _ _ => true
  | .sll _ _ _ => true
  | .srl _ _ _ => true
  | .mul _ _ _ => true
  | .div _ _ _ => true
  | .rem _ _ _ => true
  | .addi _ _ imm => immFits12 imm
  | .lw _ _ imm => immFits12 imm
  | .jalr _ _ imm => immFits12 imm
  | .sw _ _ imm => immFits12 imm
  | .beq _ _ imm => immFits13 imm
  | .bne _ _ imm => immFits13 imm
  | .blt _ _ imm => immFits13 imm
  | .bge _ _ imm => immFits13 imm
  | .jal _ imm => immFits21 imm
  | .j imm => immFits21 imm

/-- `jal` names a link register other than lane 0; with `rd = 0` the instruction is `j` (R108, R115). -/
def Instr.linkNamed : Instr → Bool
  | .jal rd _ => rd != 0
  | _ => true

/-- The well-formed instructions of R115. -/
def Instr.wellFormed (i : Instr) : Bool := i.operandsFit && i.linkNamed

/-- `Instr.wellFormed` as a proposition. -/
abbrev Instr.WellFormed (i : Instr) : Prop := i.wellFormed = true

end Sys2Proof
end

