-- ==== Sys2Proof/Decode.lean ====
section
/-! DEFINITION. The codec (30_encoding.md): the one table of bit layouts (`layout`) with the one opcode map (`keyOf`), and
`decode` and `encode`, both derived from them (R102): `fieldAt` reads a layout, `place` writes it. -/

namespace Sys2Proof

/-! ### The bit-layout table (R92 to R96) -/

/-- The layout of each format, from bit 0 up: field, position in the word, width, lowest bit of the field (R92 to R96).
It is the only place where the positions stand (R102). -/
def layout : Format → List Segment
  | .r => [⟨.opcode, 0, 7, 0⟩, ⟨.rd, 7, 5, 0⟩, ⟨.funct3, 12, 3, 0⟩, ⟨.rs1, 15, 5, 0⟩, ⟨.rs2, 20, 5, 0⟩, ⟨.funct7, 25, 7, 0⟩]
  | .i => [⟨.opcode, 0, 7, 0⟩, ⟨.rd, 7, 5, 0⟩, ⟨.funct3, 12, 3, 0⟩, ⟨.rs1, 15, 5, 0⟩, ⟨.imm, 20, 12, 0⟩]
  | .s => [⟨.opcode, 0, 7, 0⟩, ⟨.imm, 7, 5, 0⟩, ⟨.funct3, 12, 3, 0⟩, ⟨.rs1, 15, 5, 0⟩, ⟨.rs2, 20, 5, 0⟩, ⟨.imm, 25, 7, 5⟩]
  | .b => [⟨.opcode, 0, 7, 0⟩, ⟨.imm, 7, 1, 11⟩, ⟨.imm, 8, 4, 1⟩, ⟨.funct3, 12, 3, 0⟩, ⟨.rs1, 15, 5, 0⟩, ⟨.rs2, 20, 5, 0⟩,
      ⟨.imm, 25, 6, 5⟩, ⟨.imm, 31, 1, 12⟩]
  | .j => [⟨.opcode, 0, 7, 0⟩, ⟨.rd, 7, 5, 0⟩, ⟨.imm, 12, 8, 12⟩, ⟨.imm, 20, 1, 11⟩, ⟨.imm, 21, 10, 1⟩, ⟨.imm, 31, 1, 20⟩]

/-- A field read from a word: the bits of its columns, each at its place in the field; a field the layout does not have
reads 0, and so does a bit no column carries (the appended 0 of R99 and R100). -/
def fieldAt (segs : List Segment) (n : FieldName) (w : Word) : Nat :=
  (segs.map fun g => if g.field = n then w.toNat / 2 ^ g.pos % 2 ^ g.width * 2 ^ g.lo else 0).sum

/-- The word that has the given fields: each column's bits of its field, at the column's place (R116). -/
def place (segs : List Segment) (value : FieldName → Nat) : Nat :=
  (segs.map fun g => value g.field / 2 ^ g.lo % 2 ^ g.width * 2 ^ g.pos).sum

/-- The width of a field: one bit above the highest bit a column carries; of the immediate 12 for I and S, 13 for B, 21
for J (R97 to R100). -/
def fieldWidth (segs : List Segment) (n : FieldName) : Nat :=
  segs.foldl (fun k g => if g.field = n then max k (g.lo + g.width) else k) 0

/-! ### Fields of every word (R91): read by the layout of R, which has all four; they stand alike in every format that has them -/

/-- `w[6:0]`. -/
def opcodeOf (w : Word) : BitVec 7 := BitVec.ofNat 7 (fieldAt (layout .r) .opcode w)

/-- `w[11:7]`. -/
def rdOf (w : Word) : RegIdx := BitVec.ofNat 5 (fieldAt (layout .r) .rd w)

/-- `w[14:12]`. -/
def funct3Of (w : Word) : BitVec 3 := BitVec.ofNat 3 (fieldAt (layout .r) .funct3 w)

/-- `w[31:25]`. -/
def funct7Of (w : Word) : BitVec 7 := BitVec.ofNat 7 (fieldAt (layout .r) .funct7 w)

/-- The raw fields, extracted from every word whatever its format (R91). -/
def rawOf (w : Word) : Raw := { opcode := opcodeOf w, funct3 := funct3Of w, funct7 := funct7Of w }

/-! ### Operands of a word, by its format -/

/-- A register operand (R91). -/
def regOf (f : Format) (n : FieldName) (w : Word) : RegIdx := BitVec.ofNat 5 (fieldAt (layout f) n w)

/-- The immediate: its bits sign-extended from the field's width, `sext_12`, `sext_13` or `sext_21` (R97 to R101). -/
def immOf (f : Format) (w : Word) : Int :=
  (BitVec.ofNat (fieldWidth (layout f) .imm) (fieldAt (layout f) .imm w)).toInt

/-! ### The opcode map (R104) -/

/-- The format of a mnemonic (R92 to R96). -/
def Mnemonic.format : Mnemonic → Format
  | .add | .sub | .and | .or | .xor | .sll | .srl | .mul | .div | .rem => .r
  | .addi | .lw | .jalr => .i
  | .sw => .s
  | .beq | .bne | .blt | .bge => .b
  | .jal | .j => .j

/-- The key of every instruction, row for row of the table of R104 (the numbers are decision D1; log entry 3). -/
def keyOf : Mnemonic → OpKey
  | .add  => { opcode := 0b0110011, funct3 := some 0b000, funct7 := some 0b0000000, rdIsZero := none }
  | .sub  => { opcode := 0b0110011, funct3 := some 0b000, funct7 := some 0b0100000, rdIsZero := none }
  | .sll  => { opcode := 0b0110011, funct3 := some 0b001, funct7 := some 0b0000000, rdIsZero := none }
  | .xor  => { opcode := 0b0110011, funct3 := some 0b100, funct7 := some 0b0000000, rdIsZero := none }
  | .srl  => { opcode := 0b0110011, funct3 := some 0b101, funct7 := some 0b0000000, rdIsZero := none }
  | .or   => { opcode := 0b0110011, funct3 := some 0b110, funct7 := some 0b0000000, rdIsZero := none }
  | .and  => { opcode := 0b0110011, funct3 := some 0b111, funct7 := some 0b0000000, rdIsZero := none }
  | .mul  => { opcode := 0b0110011, funct3 := some 0b000, funct7 := some 0b0000001, rdIsZero := none }
  | .div  => { opcode := 0b0110011, funct3 := some 0b100, funct7 := some 0b0000001, rdIsZero := none }
  | .rem  => { opcode := 0b0110011, funct3 := some 0b110, funct7 := some 0b0000001, rdIsZero := none }
  | .addi => { opcode := 0b0010011, funct3 := some 0b000, funct7 := none, rdIsZero := none }
  | .lw   => { opcode := 0b0000011, funct3 := some 0b010, funct7 := none, rdIsZero := none }
  | .jalr => { opcode := 0b1100111, funct3 := some 0b000, funct7 := none, rdIsZero := none }
  | .sw   => { opcode := 0b0100011, funct3 := some 0b010, funct7 := none, rdIsZero := none }
  | .beq  => { opcode := 0b1100011, funct3 := some 0b000, funct7 := none, rdIsZero := none }
  | .bne  => { opcode := 0b1100011, funct3 := some 0b001, funct7 := none, rdIsZero := none }
  | .blt  => { opcode := 0b1100011, funct3 := some 0b100, funct7 := none, rdIsZero := none }
  | .bge  => { opcode := 0b1100011, funct3 := some 0b101, funct7 := none, rdIsZero := none }
  | .jal  => { opcode := 0b1101111, funct3 := none, funct7 := none, rdIsZero := some false }
  | .j    => { opcode := 0b1101111, funct3 := none, funct7 := none, rdIsZero := some true }

/-- The rows of the map. -/
def allMnemonics : List Mnemonic :=
  [.add, .sub, .and, .or, .xor, .sll, .srl, .mul, .div, .rem,
   .addi, .lw, .jalr, .sw, .beq, .bne, .blt, .bge, .jal, .j]

/-- `w` has the key `k`: exactly the key fields are compared, nothing else (R103, R107). -/
def hasKey (w : Word) (k : OpKey) : Bool :=
  (opcodeOf w == k.opcode) &&
  (match k.funct3 with | none => true | some f => funct3Of w == f) &&
  (match k.funct7 with | none => true | some f => funct7Of w == f) &&
  (match k.rdIsZero with | none => true | some z => (rdOf w == 0) == z)

/-- The row of the map whose key `w` has (R103). -/
def mnemonicOf (w : Word) : Option Mnemonic := allMnemonics.find? fun m => hasKey w (keyOf m)

/-! ### Decode (R105) -/

/-- The instruction of a row, its operands taken from the row's format fields (R92 to R100). -/
def instrOf (m : Mnemonic) (w : Word) : Instr :=
  let rd := regOf m.format .rd w
  let rs1 := regOf m.format .rs1 w
  let rs2 := regOf m.format .rs2 w
  let imm := immOf m.format w
  match m with
  | .add => .add rd rs1 rs2
  | .sub => .sub rd rs1 rs2
  | .and => .and rd rs1 rs2
  | .or => .or rd rs1 rs2
  | .xor => .xor rd rs1 rs2
  | .sll => .sll rd rs1 rs2
  | .srl => .srl rd rs1 rs2
  | .mul => .mul rd rs1 rs2
  | .div => .div rd rs1 rs2
  | .rem => .rem rd rs1 rs2
  | .addi => .addi rd rs1 imm
  | .lw => .lw rd rs1 imm
  | .jalr => .jalr rd rs1 imm
  | .sw => .sw rs1 rs2 imm
  | .beq => .beq rs1 rs2 imm
  | .bne => .bne rs1 rs2 imm
  | .blt => .blt rs1 rs2 imm
  | .bge => .bge rs1 rs2 imm
  | .jal => .jal rd imm
  | .j => .j imm

/-- `decode`, total on every 32-bit word; a word with no key is the Unknown marker (R105, R109, R113). -/
def decode (w : Word) : Decoded :=
  match mnemonicOf w with
  | some m => .known (instrOf m w) (rawOf w)
  | none => .unknown (rawOf w)

/-! ### Operands present in an instruction (R106) -/

/-- The mnemonic of an instruction. -/
def Instr.mnemonic : Instr → Mnemonic
  | .add _ _ _ => .add
  | .sub _ _ _ => .sub
  | .and _ _ _ => .and
  | .or _ _ _ => .or
  | .xor _ _ _ => .xor
  | .sll _ _ _ => .sll
  | .srl _ _ _ => .srl
  | .mul _ _ _ => .mul
  | .div _ _ _ => .div
  | .rem _ _ _ => .rem
  | .addi _ _ _ => .addi
  | .lw _ _ _ => .lw
  | .jalr _ _ _ => .jalr
  | .sw _ _ _ => .sw
  | .beq _ _ _ => .beq
  | .bne _ _ _ => .bne
  | .blt _ _ _ => .blt
  | .bge _ _ _ => .bge
  | .jal _ _ => .jal
  | .j _ => .j

/-- The format of an instruction. -/
def Instr.format (i : Instr) : Format := i.mnemonic.format

/-- The destination register of the record, absent in S and B (R106); the record of `j` has `rd = 0` (R108). -/
def Instr.rd? : Instr → Option RegIdx
  | .add rd _ _ | .sub rd _ _ | .and rd _ _ | .or rd _ _ | .xor rd _ _ => some rd
  | .sll rd _ _ | .srl rd _ _ | .mul rd _ _ | .div rd _ _ | .rem rd _ _ => some rd
  | .addi rd _ _ | .lw rd _ _ | .jalr rd _ _ => some rd
  | .sw _ _ _ | .beq _ _ _ | .bne _ _ _ | .blt _ _ _ | .bge _ _ _ => none
  | .jal rd _ => some rd
  | .j _ => some 0

/-- The first source register of the record, absent in J (R106). -/
def Instr.rs1? : Instr → Option RegIdx
  | .add _ a _ | .sub _ a _ | .and _ a _ | .or _ a _ | .xor _ a _ => some a
  | .sll _ a _ | .srl _ a _ | .mul _ a _ | .div _ a _ | .rem _ a _ => some a
  | .addi _ a _ | .lw _ a _ | .jalr _ a _ => some a
  | .sw a _ _ | .beq a _ _ | .bne a _ _ | .blt a _ _ | .bge a _ _ => some a
  | .jal _ _ | .j _ => none

/-- The second source register of the record, absent in I and J (R106). -/
def Instr.rs2? : Instr → Option RegIdx
  | .add _ _ b | .sub _ _ b | .and _ _ b | .or _ _ b | .xor _ _ b => some b
  | .sll _ _ b | .srl _ _ b | .mul _ _ b | .div _ _ b | .rem _ _ b => some b
  | .addi _ _ _ | .lw _ _ _ | .jalr _ _ _ => none
  | .sw _ b _ | .beq _ b _ | .bne _ b _ | .blt _ b _ | .bge _ b _ => some b
  | .jal _ _ | .j _ => none

/-- The immediate of the record, absent in R (R101, R106). -/
def Instr.imm? : Instr → Option Int
  | .add _ _ _ | .sub _ _ _ | .and _ _ _ | .or _ _ _ | .xor _ _ _ => none
  | .sll _ _ _ | .srl _ _ _ | .mul _ _ _ | .div _ _ _ | .rem _ _ _ => none
  | .addi _ _ imm | .lw _ _ imm | .jalr _ _ imm => some imm
  | .sw _ _ imm | .beq _ _ imm | .bne _ _ imm | .blt _ _ imm | .bge _ _ imm => some imm
  | .jal _ imm | .j imm => some imm

/-! ### Encode (R115, R116) -/

/-- The fields of an instruction: those of its row's key, its operands (0 for one its format does not have), and the
immediate's two's-complement form `imm mod 2^k` (R116). -/
def fieldsOf (i : Instr) : FieldName → Nat
  | .opcode => (keyOf i.mnemonic).opcode.toNat
  | .funct3 => ((keyOf i.mnemonic).funct3.getD 0).toNat
  | .funct7 => ((keyOf i.mnemonic).funct7.getD 0).toNat
  | .rd => (i.rd?.getD 0).toNat
  | .rs1 => (i.rs1?.getD 0).toNat
  | .rs2 => (i.rs2?.getD 0).toNat
  | .imm => (i.imm?.getD 0 % 2 ^ fieldWidth (layout i.format) .imm).toNat

/-- The fields of an instruction placed at the positions of its format (R116). -/
def wordOf (i : Instr) : Word := BitVec.ofNat 32 (place (layout i.format) (fieldsOf i))

/-- `encode`: the word of an instruction whose operands fit, refused otherwise, never truncating; `jal` with `rd = 0`
is accepted as a spelling of `j` and gives the same word (R115). -/
def encode (i : Instr) : Option Word := if i.operandsFit then some (wordOf i) else none

/-- The spelling `decode` gives of an instruction: itself, but `j` for `jal` with `rd = 0`, which has the word of `j`
(R108, R115). It is the one identification modulo which `encode` is injective (R123). -/
def Instr.asDecoded : Instr → Instr
  | .jal rd imm => if rd = 0#5 then .j imm else .jal rd imm
  | i => i

/-- `encode` of a decoded record; the raw fields are ignored and Unknown has no encoding (R115). -/
def encodeDecoded : Decoded → Option Word
  | .known i _ => encode i
  | .unknown _ => none

/-! ### Words of the opcode table -/

/-- The instruction word whose `nbits` low bits are those of `w`, every bit above them 0. -/
def tableWord (nbits w : Nat) : Word := BitVec.ofNat 32 (w % 2 ^ nbits)

/-- The instruction the decoder reads from a word numbered as spec/opcode_table.json numbers it (none for Unknown). -/
def decodeTableWord (nbits w : Nat) : Option Instr :=
  match decode (tableWord nbits w) with
  | .known i _ => some i
  | .unknown _ => none

end Sys2Proof
end

