-- ==== Sys2Proof/Machine/State.lean ====
section
/-! DEFINITION. The state of the hardware as plain data (10_state.md R20 and its list in INVENTORY.md), the faults and
refusals, and the state after reset (R48). -/

namespace Sys2Proof.Machine

/-- The stages an instruction has work in, in the order a cycle evaluates them (45_pipeline_engine.md R220). IF is not
among them: it fetches a word, not yet an instruction. -/
inductive Stage where
  | wb | mem | ex | id
  deriving DecidableEq, Repr

/-- Which access an AddressError names (R281: "load or store"). -/
inductive Access where
  | load | store
  deriving DecidableEq, Repr

/-- The hardware faults (60_exceptions.md R281), each with the information the latch records. -/
inductive Fault where
  /-- Raised by `lw` and `sw` in MEM when `addr + 4 > DMEM_BYTES` (R283). Safe: the spec stops here too. -/
  | addressError (access : Access) (addr : Word) (pc : Word)
  /-- Raised by `div` and `rem` in EX when the divisor value is 0 (R284). Safe: the spec stops here too. -/
  | divisionByZero (pc : Word)
  /-- Raised by a taken control transfer in ID when the target is not a multiple of 4 (R286, the spec's decision D6).
  Safe: the model stops where the original software may go on. -/
  | misalignedTarget (target : Word) (pc : Word)
  deriving DecidableEq, Repr

/-- Why a step has no meaning. Every instruction of the table has a meaning, so nothing raises a refusal. -/
inductive Refusal where
  /-- Only for an arm of `exec` whose instruction has no meaning yet: there is none. Safe. -/
  | notModelled (mnemonic : String)
  deriving DecidableEq, Repr

/-- A stage register: the `pc` it carries and its content, absent when `valid` is 0 (R32, R33). In a bubble every field
but `pc` is absent, so equal bubbles are equal data (D9, log entry 8). -/
structure Slot (α : Type) where
  pc : Word
  content : Option α
  deriving DecidableEq, Repr

/-- What ID_EX holds beside `valid` and `pc` (R35). -/
structure IdExData where
  instr : Decoded
  rs1Val : Word
  rs2Val : Word
  deriving DecidableEq, Repr

/-- What EX_MEM holds beside `valid` and `pc` (R36). -/
structure ExMemData where
  instr : Decoded
  aluResult : Word
  rs2Val : Word
  deriving DecidableEq, Repr

/-- What MEM_WB holds beside `valid` and `pc` (R37). -/
structure MemWbData where
  instr : Decoded
  result : Word
  deriving DecidableEq, Repr

/-- The data memory: (address, byte) pairs, addresses strictly rising, no byte 0 listed; an unlisted byte is 0
(20_memory.md R61; zero-filled, R48). -/
abbrev Memory := List Host.Cell

/-- Everything the spec gives the machine (R20), the parameter `DMEM_BYTES` (R8), and two fields of the model's own:
`touched` and `stage`. -/
structure State where
  /-- The register file `x[0..31]` (R21). -/
  regs : Vector Word 32
  /-- The address IF fetches from in this cycle (R28). -/
  pc : Word
  /-- IF_ID: the fetched word (R34). -/
  ifId : Slot Word
  /-- ID_EX (R35). -/
  idEx : Slot IdExData
  /-- EX_MEM (R36). -/
  exMem : Slot ExMemData
  /-- MEM_WB (R37). -/
  memWb : Slot MemWbData
  /-- The data memory (R61). -/
  mem : Memory
  /-- The instruction store; `N` is its length (R69). -/
  imem : List Word
  /-- `DMEM_BYTES` (R8): no cycle changes it (log entry 10). -/
  dmemBytes : Nat
  /-- The fault latch (R40). -/
  fault : Option Fault
  /-- The cycle counter (R41). -/
  cycle : Nat
  /-- The model's own: word-aligned addresses a store has written since the load, rising, for the optional memory
  listing of the snapshot (R270, D14; log entry 13). -/
  touched : List Nat
  /-- The model's own: the stage being evaluated within a cycle; between cycles `id`, the stage in which a fetched word
  becomes an instruction (log entry 1). -/
  stage : Stage
  deriving DecidableEq, Repr

/-- The machine right after reset, before any load (R48, R311). -/
def State.reset : State where
  regs := Vector.replicate 32 0
  pc := 0
  ifId := { pc := 0, content := none }
  idEx := { pc := 0, content := none }
  exMem := { pc := 0, content := none }
  memWb := { pc := 0, content := none }
  mem := []
  imem := []
  dmemBytes := Config.defaultDmemBytes
  fault := none
  cycle := 0
  touched := []
  stage := .id

end Sys2Proof.Machine
end

