-- ==== Sys2Proof/Machine/Ops.lean ====
section
/-! DEFINITION. The named operations over registers, memory, the instruction store and the program counter
(10_state.md R22, R23; 20_memory.md R61 to R70; 45_pipeline_engine.md R243 to R246), and the fault outcome
(60_exceptions.md R282). -/

namespace Sys2Proof.Machine

/-- What one stage, or one cycle, answers. -/
abbrev StepOutcome := Host.Outcome State Fault Refusal

/-- The next stage of a cycle runs only where no earlier stage has raised: the first raise met is the one reported
(R222, R247). -/
def andThen (o : StepOutcome) (f : State → StepOutcome) : StepOutcome :=
  match o with
  | .next s => f s
  | .fault r => .fault r
  | .refused r => .refused r

/-! ### Faults -/

/-- `raise <Kind>(info)`: the cycle ends with the fault outcome (00_scope.md R14). -/
def raise (f : Fault) : StepOutcome := .fault f

/-- The state the hardware is left in by a cycle that raises `f`: the latch records it, nothing else changes (R282). -/
def latchFault (s : State) (f : Fault) : State := { s with fault := some f }

/-! ### Register file -/

/-- `read(index)` inside the hardware: lane 0 is always 0 (R22, R24). -/
def readLane (regs : Vector Word 32) (i : RegIdx) : Word := if i = 0#5 then 0#32 else regs[i.toNat]

/-- `write(index, value)` inside the hardware: a write to lane 0 changes nothing (R23). -/
def writeLane (regs : Vector Word 32) (i : RegIdx) (v : Word) : Vector Word 32 :=
  if i = 0#5 then regs else regs.set i.toNat v

/-- The register file's own `read(index)`; `none` is InvalidRegister (R22). -/
def registerRead (regs : Vector Word 32) (index : Nat) : Option Word :=
  if index < 32 then some (readLane regs (BitVec.ofNat 5 index)) else none

/-- The register file's own `write(index, value)`: a no-op at 0 and at 32 and above, else stores `u32(value)` (R23). -/
def registerWrite (regs : Vector Word 32) (index : Nat) (value : Int) : Vector Word 32 :=
  if index < 32 then writeLane regs (BitVec.ofNat 5 index) (u32 value) else regs

/-! ### Data memory -/

/-- The byte at an address: the listed one, else 0 (R61). -/
def Memory.get : Memory → Nat → Byte
  | [], _ => 0#8
  | (a', b') :: m, a => if a = a' then b' else Memory.get m a

/-- The memory with one byte changed, in canonical form: writing 0 removes the entry. -/
def Memory.set : Memory → Nat → Byte → Memory
  | [], a, b => if b = 0#8 then [] else [(a, b)]
  | (a', b') :: m, a, b =>
    if a < a' then (if b = 0#8 then (a', b') :: m else (a, b) :: (a', b') :: m)
    else if a = a' then (if b = 0#8 then m else (a, b) :: m)
    else (a', b') :: Memory.set m a b

/-- The canonical form from address `lo` on: addresses strictly rising and at least `lo`, no byte 0 listed. -/
def Memory.wfFrom : Nat → Memory → Bool
  | _, [] => true
  | lo, (a, b) :: m => decide (lo ≤ a) && (b != 0#8) && Memory.wfFrom (a + 1) m

/-- The canonical form: addresses strictly rising, no byte 0 listed. -/
def Memory.wf (m : Memory) : Bool := Memory.wfFrom 0 m

/-- Every listed address is below the capacity (R61). -/
def Memory.within (capacity : Nat) (m : Memory) : Bool := m.all fun c => decide (c.1 < capacity)

/-- `read_byte(addr)`, `MemRead(addr, 1)`; `none` is AddressError (R62). -/
def readByte (capacity : Nat) (m : Memory) (addr : Nat) : Option Byte :=
  if addr < capacity then some (Memory.get m addr) else none

/-- `write_byte(addr, value)`, `MemWrite(addr, 1, value)`: the value modulo 256; `none` is AddressError (R63, D16). -/
def writeByte (capacity : Nat) (m : Memory) (addr : Nat) (value : Nat) : Option Memory :=
  if addr < capacity then some (Memory.set m addr (BitVec.ofNat 8 value)) else none

/-- The four bytes at `addr`, the lowest address least significant (R64, R67). -/
def wordAt (m : Memory) (addr : Nat) : Word :=
  (Memory.get m (addr + 3) ++ Memory.get m (addr + 2) ++ Memory.get m (addr + 1) ++ Memory.get m addr
    : BitVec (8 + 8 + 8 + 8))

/-- `read_word(addr)`, `MemRead(addr, 4)`: no alignment requirement (R68), the bound tested on unwrapped integers (R75);
`none` is AddressError (R64). -/
def readWord (capacity : Nat) (m : Memory) (addr : Nat) : Option Word :=
  if addr + 4 ≤ capacity then some (wordAt m addr) else none

/-- The memory with the four bytes of `v` at `addr`, little-endian (R65). -/
def setWord (m : Memory) (addr : Nat) (v : Word) : Memory :=
  Memory.set (Memory.set (Memory.set (Memory.set m addr (v.extractLsb' 0 8)) (addr + 1) (v.extractLsb' 8 8))
    (addr + 2) (v.extractLsb' 16 8)) (addr + 3) (v.extractLsb' 24 8)

/-- `write_word(addr, value)`, `MemWrite(addr, 4, value)`; `none` is AddressError, and then no byte changes (R65, R76). -/
def writeWord (capacity : Nat) (m : Memory) (addr : Nat) (v : Word) : Option Memory :=
  if addr + 4 ≤ capacity then some (setWord m addr v) else none

/-- The memory with a run of bytes copied in from `base` on. -/
def setBytes : Memory → Nat → List Byte → Memory
  | m, _, [] => m
  | m, base, b :: bytes => setBytes (Memory.set m base b) (base + 1) bytes

/-- `load_image(bytes, base_addr)` on the memory: all or nothing; `none` is AddressError (R66, D16). -/
def imageInto (capacity : Nat) (m : Memory) (bytes : List Byte) (base : Nat) : Option Memory :=
  if base + bytes.length ≤ capacity then some (setBytes m base bytes) else none

/-- A rising list of addresses with one more in it. -/
def insertAddr : List Nat → Nat → List Nat
  | [], a => [a]
  | b :: t, a => if a < b then a :: b :: t else if a = b then b :: t else b :: insertAddr t a

/-- The word-aligned addresses written since the load, with those of a word store at `addr` (R270, D14). -/
def noteStore (touched : List Nat) (addr : Nat) : List Nat :=
  insertAddr (insertAddr touched (addr / 4 * 4)) ((addr + 3) / 4 * 4)

/-! ### Instruction fetch and the program counter -/

/-- The stage-register value with `valid = 0` and `pc = p` (45_pipeline_engine.md, notation). -/
def bubble {α : Type} (p : Word) : Slot α := { pc := p, content := none }

/-- `IFetch(pc)`: the word at `pc` where `pc < 4*N`, else nothing and no fault (R70). -/
def instructionFetch (imem : List Word) (pc : Word) : Option Word :=
  if pc.toNat < 4 * imem.length then imem[pc.toNat / 4]? else none

/-- IF when nothing is taken: fetch and advance `pc` by 4 (R243), or a bubble carrying `pc`, which stays (R244). -/
def fetch (s : State) : State :=
  match instructionFetch s.imem s.pc with
  | some w => { s with ifId := { pc := s.pc, content := some w }, pc := s.pc + 4#32 }
  | none => { s with ifId := bubble s.pc }

/-- IF when ID takes a transfer: the fetch of this cycle is discarded, `pc` becomes the target (R245). -/
def redirect (s : State) (target : Word) : State := { s with ifId := bubble target, pc := target }

/-- The instruction store with `w` at byte address `pc`, lengthened with zero words where it is too short. -/
def placeWord (imem : List Word) (pc : Word) (w : Word) : List Word :=
  let k := pc.toNat / 4
  (imem ++ List.replicate (k + 1 - imem.length) 0#32).set k w

/-- The program with `w` at the current `pc`, and the cycle that fetches it done: `w` is in IF_ID, to be decoded and
run by ID in the next step (R243; log entry 2). -/
def fetchPlaced (s : State) (w : Word) : State := fetch { s with imem := placeWord s.imem s.pc w }

end Sys2Proof.Machine
end

