-- ==== Sys2Proof/Machine/Operands.lean ====
section
/-! DEFINITION. Operand forms: source registers read in ID (45_pipeline_engine.md R238), the second ALU operand (R231),
control-transfer targets (43_control_transfer.md R206, R207), their alignment (R208) and the link value (R214). -/

namespace Sys2Proof.Machine

/-- An operand value read in ID: the register's value, or 0 where the format has no such register (R238). -/
def sourceValue (s : State) (r : Option RegIdx) : Word :=
  match r with
  | some i => readLane s.regs i
  | none => 0#32

/-- The ALU's second operand: `u32(imm)` where the format has an immediate, else the `rs2` value (R231). -/
def secondOperand (imm : Option Int) (rs2Val : Word) : Word :=
  match imm with
  | some v => u32 v
  | none => rs2Val

/-- Target of `beq bne blt bge jal j`: `u32(pc_of_instruction + imm)` (R206). -/
def relativeTarget (pcOfInstr : Word) (imm : Int) : Word := u32 (pcOfInstr.toNat + imm)

/-- Target of `jalr`: `u32(rs1_val + imm) & 0xFFFFFFFE` (R207). -/
def indirectTarget (rs1Val : Word) (imm : Int) : Word := u32 (rs1Val.toNat + imm) &&& 0xFFFFFFFE#32

/-- `target mod 4 = 0` (R208). -/
def targetAligned (target : Word) : Bool := decide (target.toNat % 4 = 0)

/-- The link value `u32(pc_of_instruction + 4)` (R214). -/
def linkValue (pcOfInstr : Word) : Word := u32 (pcOfInstr.toNat + 4)

end Sys2Proof.Machine
end

