-- ==== Sys2Proof/Machine/Flags.lean ====
section
/-! DEFINITION. The hardware has no flags, condition codes or predicate registers (10_state.md R44; 40_alu.md R157):
a branch compares two register values directly. The four comparisons of 45_pipeline_engine.md R240. -/

namespace Sys2Proof.Machine

/-- `beq` is taken iff the operands are equal (R201, R240). -/
def takenBeq (a b : Word) : Bool := decide (a = b)

/-- `bne` is taken iff the operands differ (R202, R240). -/
def takenBne (a b : Word) : Bool := decide (a ≠ b)

/-- `blt` is taken iff `signed(rs1) < signed(rs2)` (R203, R240). -/
def takenBlt (a b : Word) : Bool := decide (signed a < signed b)

/-- `bge` is taken iff `signed(rs1) >= signed(rs2)` (R204, R240). -/
def takenBge (a b : Word) : Bool := decide (signed b ≤ signed a)

/-- A jump is always taken (R240). -/
def takenAlways (_a _b : Word) : Bool := true

end Sys2Proof.Machine
end

