-- ==== Sys2Proof/Machine/Alu.lean ====
section
/-! DEFINITION. The arithmetic/logic unit (40_alu.md): 13 operations on two words, wrapping silently, failing only on a
zero divisor. It has no state and writes no flag (R140, R157). -/

namespace Sys2Proof.Machine

/-- The closed enumeration of operations (R141). -/
inductive AluOp where
  | add | sub | and | or | xor | nor | not | slt | mul | div | rem | sll | srl
  deriving DecidableEq, Repr

/-- A 32-bit word, or the failure DivisionByZero (R140). -/
inductive AluOutcome where
  | value (r : Word)
  | divisionByZero
  deriving DecidableEq, Repr

/-- The shift amount: the low 5 bits of `b` (R153, R154). -/
def shiftAmount (b : Word) : Nat := (b.extractLsb' 0 5).toNat

/-- `operate(op, a, b)` (R142 to R154). -/
def operate (op : AluOp) (a b : Word) : AluOutcome :=
  match op with
  | .add => .value (a + b)
  | .sub => .value (a - b)
  | .and => .value (a &&& b)
  | .or => .value (a ||| b)
  | .xor => .value (a ^^^ b)
  | .nor => .value (~~~(a ||| b))
  | .not => .value (~~~a)
  | .slt => .value (if signed a < signed b then 1 else 0)
  | .mul => .value (a * b)
  | .div => if b = 0#32 then .divisionByZero else .value (BitVec.udiv a b)
  | .rem => if b = 0#32 then .divisionByZero else .value (BitVec.umod a b)
  | .sll => .value (a <<< shiftAmount b)
  | .srl => .value (a >>> shiftAmount b)

/-- The ALU's output ports (R140; port names D15). -/
structure AluPorts where
  result : Word
  divByZero : Bool

/-- The combinational form: `div_by_zero` is 1 exactly when `op` is DIV or REM and `b = 0`, and then `result` is a free
value (R140, U15; log entry 18). -/
def aluPorts (op : AluOp) (a b : Word) : AluPorts :=
  match operate op a b with
  | .value r => { result := r, divByZero := false }
  | .divisionByZero => { result := Config.resultOnZeroDivisor (decide (op = .rem)) a, divByZero := true }

/-- The operation of a name, without regard to case; `none` is UnsupportedOperation (R156). -/
def aluOpOfName (name : String) : Option AluOp :=
  match String.ofList (name.toList.map Char.toUpper) with
  | "ADD" => some .add
  | "SUB" => some .sub
  | "AND" => some .and
  | "OR" => some .or
  | "XOR" => some .xor
  | "NOR" => some .nor
  | "NOT" => some .not
  | "SLT" => some .slt
  | "MUL" => some .mul
  | "DIV" => some .div
  | "REM" => some .rem
  | "SLL" => some .sll
  | "SRL" => some .srl
  | _ => none

/-- The source's software form: `operate` by name; `none` is UnsupportedOperation (R156). -/
def operateByName (name : String) (a b : Word) : Option AluOutcome :=
  (aluOpOfName name).map fun op => operate op a b

end Sys2Proof.Machine
end

