-- ==== Sys2Proof/Machine/Stages.lean ====
section
/-! DEFINITION. What an instruction can do in each stage, as operations the meanings share (45_pipeline_engine.md
R223 to R246). Each one reads the stage register on its input side; on a bubble it only passes a bubble on (R39).
A cycle evaluates WB, MEM, EX, ID in this order on one state (R220), so each stage register is read before the older
neighbour's result replaces it, and ID sees the register write of WB of the same cycle (R239). -/

namespace Sys2Proof.Machine

/-! ### WB -/

/-- WB of an instruction that writes a register: `x[rd] <- result` (R223). -/
def writeBack (rd : RegIdx) (s : State) : StepOutcome :=
  match s.memWb.content with
  | some c => .next { s with regs := writeLane s.regs rd c.result }
  | none => .next s

/-- WB of an instruction that writes no register (R224). -/
def noWriteBack (s : State) : StepOutcome := .next s

/-! ### MEM -/

/-- MEM of an instruction that does not access memory: the ALU result passes through (R229; a bubble, R226). -/
def memPass (s : State) : StepOutcome :=
  match s.exMem.content with
  | some c => .next { s with memWb := { pc := s.exMem.pc, content := some { instr := c.instr, result := c.aluResult } } }
  | none => .next { s with memWb := bubble s.exMem.pc }

/-- MEM of `lw` (R227). -/
def memLoad (s : State) : StepOutcome :=
  match s.exMem.content with
  | some c =>
    match readWord s.dmemBytes s.mem c.aluResult.toNat with
    | some v => .next { s with memWb := { pc := s.exMem.pc, content := some { instr := c.instr, result := v } } }
    | none => raise (.addressError .load c.aluResult s.exMem.pc)
  | none => .next { s with memWb := bubble s.exMem.pc }

/-- MEM of `sw` (R228). -/
def memStore (s : State) : StepOutcome :=
  match s.exMem.content with
  | some c =>
    match writeWord s.dmemBytes s.mem c.aluResult.toNat c.rs2Val with
    | some m =>
      .next { s with
        mem := m
        touched := noteStore s.touched c.aluResult.toNat
        memWb := { pc := s.exMem.pc, content := some { instr := c.instr, result := c.aluResult } } }
    | none => raise (.addressError .store c.aluResult s.exMem.pc)
  | none => .next { s with memWb := bubble s.exMem.pc }

/-! ### EX -/

/-- The EX_MEM value of an instruction in EX whose result is `r`. -/
def exResult (s : State) (c : IdExData) (r : Word) : State :=
  { s with exMem := { pc := s.idEx.pc, content := some { instr := c.instr, aluResult := r, rs2Val := c.rs2Val } } }

/-- EX of an ALU instruction: drive the ALU with `op` on the `rs1` value and the second operand (R231, R232). -/
def exAlu (op : AluOp) (imm : Option Int) (s : State) : StepOutcome :=
  match s.idEx.content with
  | some c =>
    match operate op c.rs1Val (secondOperand imm c.rs2Val) with
    | .value r => .next (exResult s c r)
    | .divisionByZero => raise (.divisionByZero s.idEx.pc)
  | none => .next { s with exMem := bubble s.idEx.pc }

/-- EX of `jal`, `j`, `jalr`: the link value, the ALU not driven (R233). -/
def exLink (s : State) : StepOutcome :=
  match s.idEx.content with
  | some c => .next (exResult s c (linkValue s.idEx.pc))
  | none => .next { s with exMem := bubble s.idEx.pc }

/-- EX of a branch, and of an Unknown: the result is 0, the ALU not driven (R234, R236). -/
def exZero (s : State) : StepOutcome :=
  match s.idEx.content with
  | some c => .next (exResult s c 0#32)
  | none => .next { s with exMem := bubble s.idEx.pc }

/-! ### ID, with the fetch or flush of IF in the same cycle -/

/-- ID hands the decoded word and the operand values to EX (R238; a bubble, R237). -/
def issue (src1 src2 : Option RegIdx) (s : State) : State :=
  match s.ifId.content with
  | some w =>
    let data : IdExData := { instr := decode w, rs1Val := sourceValue s src1, rs2Val := sourceValue s src2 }
    { s with idEx := { pc := s.ifId.pc, content := some data } }
  | none => { s with idEx := bubble s.ifId.pc }

/-- ID of an instruction that is no control transfer; IF fetches (R238, R243, R244). -/
def idPlain (src1 src2 : Option RegIdx) (s : State) : StepOutcome := .next (fetch (issue src1 src2 s))

/-- ID of a control transfer: decide with the operand values, and if taken redirect `pc` and flush the fetch of this
cycle, or raise MisalignedTarget (R240, R241, R245); if not taken IF fetches. The transfer itself goes on to EX (R242).
`target` takes the instruction's own address and its `rs1` value. -/
def idTransfer (src1 src2 : Option RegIdx) (taken : Word → Word → Bool) (target : Word → Word → Word)
    (s : State) : StepOutcome :=
  match s.ifId.content with
  | some _ =>
    let t := target s.ifId.pc (sourceValue s src1)
    if taken (sourceValue s src1) (sourceValue s src2) then
      if targetAligned t then .next (redirect (issue src1 src2 s) t)
      else raise (.misalignedTarget t s.ifId.pc)
    else .next (fetch (issue src1 src2 s))
  | none => .next (fetch (issue src1 src2 s))

end Sys2Proof.Machine
end

