-- ==== Sys2Proof/Machine/Arithmetic.lean ====
section
/-! DEFINITION. The ten R-format instructions (41_r_format_arithmetic.md R170 to R180): in ID both registers are read, in EX the
ALU operation of the same name is driven on the two values, MEM passes the result, WB writes `x[rd]`. No flags; `div` and
`rem` are unsigned and raise DivisionByZero in EX whatever `rd` is. -/

namespace Sys2Proof.Machine

/-- An R-format instruction in the stage being evaluated (R170, R223, R229, R231, R238). -/
def execRFormat (op : AluOp) (rd rs1 rs2 : RegIdx) (s : State) : StepOutcome :=
  match s.stage with
  | .id => idPlain (some rs1) (some rs2) s
  | .ex => exAlu op none s
  | .mem => memPass s
  | .wb => writeBack rd s

/-- `add rd, rs1, rs2`: `x[rd] <- u32(x[rs1] + x[rs2])` (R171). -/
def execAdd (rd rs1 rs2 : RegIdx) (s : State) : StepOutcome := execRFormat .add rd rs1 rs2 s

/-- `sub rd, rs1, rs2`: `x[rd] <- u32(x[rs1] - x[rs2])` (R172). -/
def execSub (rd rs1 rs2 : RegIdx) (s : State) : StepOutcome := execRFormat .sub rd rs1 rs2 s

/-- `and rd, rs1, rs2`: `x[rd] <- x[rs1] & x[rs2]` (R173). -/
def execAnd (rd rs1 rs2 : RegIdx) (s : State) : StepOutcome := execRFormat .and rd rs1 rs2 s

/-- `or rd, rs1, rs2`: `x[rd] <- x[rs1] | x[rs2]` (R174). -/
def execOr (rd rs1 rs2 : RegIdx) (s : State) : StepOutcome := execRFormat .or rd rs1 rs2 s

/-- `xor rd, rs1, rs2`: `x[rd] <- x[rs1] ^ x[rs2]` (R175). -/
def execXor (rd rs1 rs2 : RegIdx) (s : State) : StepOutcome := execRFormat .xor rd rs1 rs2 s

/-- `sll rd, rs1, rs2`: `x[rd] <- u32(x[rs1] << x[rs2][4:0])` (R176). -/
def execSll (rd rs1 rs2 : RegIdx) (s : State) : StepOutcome := execRFormat .sll rd rs1 rs2 s

/-- `srl rd, rs1, rs2`: `x[rd] <- x[rs1] >> x[rs2][4:0]` (R177). -/
def execSrl (rd rs1 rs2 : RegIdx) (s : State) : StepOutcome := execRFormat .srl rd rs1 rs2 s

/-- `mul rd, rs1, rs2`: `x[rd] <- u32(x[rs1] * x[rs2])` (R178). -/
def execMul (rd rs1 rs2 : RegIdx) (s : State) : StepOutcome := execRFormat .mul rd rs1 rs2 s

/-- `div rd, rs1, rs2`: `x[rd] <- x[rs1] div x[rs2]`, unsigned; a zero divisor raises DivisionByZero (R179). -/
def execDiv (rd rs1 rs2 : RegIdx) (s : State) : StepOutcome := execRFormat .div rd rs1 rs2 s

/-- `rem rd, rs1, rs2`: `x[rd] <- x[rs1] mod x[rs2]`, unsigned; a zero divisor raises DivisionByZero (R180). -/
def execRem (rd rs1 rs2 : RegIdx) (s : State) : StepOutcome := execRFormat .rem rd rs1 rs2 s

end Sys2Proof.Machine
end

