-- ==== Sys2Proof/Machine/LoadStore.lean ====
section
/-! DEFINITION. `addi`, `lw` and `sw` (42_immediate_load_store.md R190 to R193): in EX the ALU adds the `rs1` value and the
sign-extended immediate; `lw` and `sw` use the sum as the address of one word access in MEM, with no alignment
requirement (R68). -/

namespace Sys2Proof.Machine

/-- `addi rd, rs1, imm`: `x[rd] <- u32(x[rs1] + imm)` (R191). -/
def execAddi (rd rs1 : RegIdx) (imm : Int) (s : State) : StepOutcome :=
  match s.stage with
  | .id => idPlain (some rs1) none s
  | .ex => exAlu .add (some imm) s
  | .mem => memPass s
  | .wb => writeBack rd s

/-- `lw rd, imm(rs1)`: `x[rd] <- MemRead(u32(x[rs1] + imm), 4)`, or AddressError in MEM (R192). -/
def execLw (rd rs1 : RegIdx) (imm : Int) (s : State) : StepOutcome :=
  match s.stage with
  | .id => idPlain (some rs1) none s
  | .ex => exAlu .add (some imm) s
  | .mem => memLoad s
  | .wb => writeBack rd s

/-- `sw rs2, imm(rs1)`: `MemWrite(u32(x[rs1] + imm), 4, x[rs2])`, or AddressError in MEM; writes no register (R193). -/
def execSw (rs1 rs2 : RegIdx) (imm : Int) (s : State) : StepOutcome :=
  match s.stage with
  | .id => idPlain (some rs1) (some rs2) s
  | .ex => exAlu .add (some imm) s
  | .mem => memStore s
  | .wb => noWriteBack s

end Sys2Proof.Machine
end

