-- ==== Sys2Proof/Machine/Transfer.lean ====
section
/-! DEFINITION. The control transfers (43_control_transfer.md R200 to R215), resolved in ID: the branches decide on the two
register values and write nothing; the jumps are always taken and deliver the link value `pc_of_instruction + 4`. -/

namespace Sys2Proof.Machine

/-- A conditional branch in the stage being evaluated (R200, R215, R234, R240). -/
def execBranch (taken : Word → Word → Bool) (rs1 rs2 : RegIdx) (imm : Int) (s : State) : StepOutcome :=
  match s.stage with
  | .id => idTransfer (some rs1) (some rs2) taken (fun pcOfInstr _ => relativeTarget pcOfInstr imm) s
  | .ex => exZero s
  | .mem => memPass s
  | .wb => noWriteBack s

/-- A jump to an address relative to its own, linking `rd` (R205, R209, R233). -/
def execJump (rd : RegIdx) (imm : Int) (s : State) : StepOutcome :=
  match s.stage with
  | .id => idTransfer none none takenAlways (fun pcOfInstr _ => relativeTarget pcOfInstr imm) s
  | .ex => exLink s
  | .mem => memPass s
  | .wb => writeBack rd s

/-- `beq rs1, rs2, imm`: if `x[rs1] = x[rs2]` then `pc <- u32(pc_of_instruction + imm)` (R201). -/
def execBeq (rs1 rs2 : RegIdx) (imm : Int) (s : State) : StepOutcome :=
  execBranch takenBeq rs1 rs2 imm s

/-- `bne rs1, rs2, imm`: if `x[rs1] != x[rs2]` then `pc <- u32(pc_of_instruction + imm)` (R202). -/
def execBne (rs1 rs2 : RegIdx) (imm : Int) (s : State) : StepOutcome :=
  execBranch takenBne rs1 rs2 imm s

/-- `blt rs1, rs2, imm`: if `signed(x[rs1]) < signed(x[rs2])` then `pc <- u32(pc_of_instruction + imm)` (R203). -/
def execBlt (rs1 rs2 : RegIdx) (imm : Int) (s : State) : StepOutcome :=
  execBranch takenBlt rs1 rs2 imm s

/-- `bge rs1, rs2, imm`: if `signed(x[rs1]) >= signed(x[rs2])` then `pc <- u32(pc_of_instruction + imm)` (R204). -/
def execBge (rs1 rs2 : RegIdx) (imm : Int) (s : State) : StepOutcome :=
  execBranch takenBge rs1 rs2 imm s

/-- `jal rd, imm`: `pc <- u32(pc_of_instruction + imm)`; `x[rd] <- u32(pc_of_instruction + 4)` (R205). -/
def execJal (rd : RegIdx) (imm : Int) (s : State) : StepOutcome := execJump rd imm s

/-- `j imm`: as `jal` with `rd = 0`, so the link write is dropped (R209). -/
def execJ (imm : Int) (s : State) : StepOutcome := execJump 0 imm s

/-- `jalr rd, imm(rs1)`: `pc <- u32(x[rs1] + imm) & 0xFFFFFFFE`; `x[rd] <- u32(pc_of_instruction + 4)` (R210). -/
def execJalr (rd rs1 : RegIdx) (imm : Int) (s : State) : StepOutcome :=
  match s.stage with
  | .id => idTransfer (some rs1) none takenAlways (fun _ rs1Val => indirectTarget rs1Val imm) s
  | .ex => exLink s
  | .mem => memPass s
  | .wb => writeBack rd s

end Sys2Proof.Machine
end

