-- ==== Sys2Proof/Machine/Cycle.lean ====
section
/-! DEFINITION. One clock cycle (45_pipeline_engine.md R247): each stage runs the instruction its stage register holds,
in the order WB, MEM, EX, ID (with IF), on one state. A bubble passes a bubble on (R39) and an Unknown is inert (R236). -/

namespace Sys2Proof.Machine

/-- The state with another stage being evaluated (log entry 1). -/
def atStage (st : Stage) (s : State) : State := { s with stage := st }

/-- WB of the instruction in MEM_WB (R223, R224). -/
def wbStage (s : State) : StepOutcome :=
  match s.memWb.content with
  | none => .next s
  | some c =>
    match c.instr with
    | .unknown _ => noWriteBack s
    | .known i _ => exec i (atStage .wb s)

/-- MEM of the instruction in EX_MEM (R226 to R229). -/
def memStage (s : State) : StepOutcome :=
  match s.exMem.content with
  | none => memPass s
  | some c =>
    match c.instr with
    | .unknown _ => memPass s
    | .known i _ => exec i (atStage .mem s)

/-- EX of the instruction in ID_EX (R230 to R236). -/
def exStage (s : State) : StepOutcome :=
  match s.idEx.content with
  | none => exZero s
  | some c =>
    match c.instr with
    | .unknown _ => exZero s
    | .known i _ => exec i (atStage .ex s)

/-- ID of the word in IF_ID, with the fetch or flush of IF (R237 to R246). -/
def idStage (s : State) : StepOutcome :=
  match s.ifId.content with
  | none => idPlain none none s
  | some w =>
    match decode w with
    | .unknown _ => idPlain none none s
    | .known i _ => exec i (atStage .id s)

/-- WB, MEM and EX: the part of a cycle that belongs to the instructions fetched earlier. -/
def olderStages (s : State) : StepOutcome := andThen (andThen (wbStage s) memStage) exStage

/-- Every stage done without a raise: the new values stand and the counter advances (R222). -/
def commit (s : State) : StepOutcome := .next { s with cycle := s.cycle + 1, stage := .id }

/-- One cycle from a state whose latch is clear (R247). -/
def runCycle (s : State) : StepOutcome := andThen (andThen (olderStages s) idStage) commit

/-- `step()`: with the latch set it reports the same fault (R263, R282), else it executes one cycle. -/
def cycle (s : State) : StepOutcome :=
  match s.fault with
  | some f => raise f
  | none => runCycle s

end Sys2Proof.Machine
end

