-- ==== Sys2Proof/Machine/Step.lean ====
section
/-! DEFINITION. One step of the machine is one clock cycle (45_pipeline_engine.md R220, R247). -/

namespace Sys2Proof.Machine

/-- `step()` (R247, R263). -/
def step (s : State) : Host.Outcome State Fault Refusal := cycle s

/-- The state in which the word of a table row stands where the next step runs its instruction: placed in the program at
`pc` and fetched into IF_ID (log entry 2). -/
def State.withFetchWord (s : State) (nbits w : Nat) : State := fetchPlaced s (tableWord nbits w)

end Sys2Proof.Machine
end

