-- ==== Sys2Proof/Machine/Entry.lean ====
section
/-! DEFINITION. The host's entry points (48_host_interface.md R260 to R273): load, reset, one clocked step with its
report, run, read-back, the snapshot; the ABI names (10_state.md R25); the ordinals of the faults (60_exceptions.md
R281). The host acts only between cycles (R271). -/

namespace Sys2Proof.Machine

/-! ### Names -/

/-- The ABI name of each lane, 0 to 31 (R25; log entry 19). -/
def abiNames : List String :=
  ["zero", "ra", "sp", "gp", "tp", "t0", "t1", "t2"] ++
  ["s0", "s1", "a0", "a1", "a2", "a3", "a4", "a5"] ++
  ["a6", "a7", "s2", "s3", "s4", "s5", "s6", "s7"] ++
  ["s8", "s9", "s10", "s11", "t3", "t4", "t5", "t6"]

/-- The lane an ABI name means; `fp` is an alternative name of `s0` (R25). -/
def laneOfName (name : String) : Option RegIdx :=
  if name = "fp" then some 8 else (abiNames.findIdx? fun n => n = name).map (BitVec.ofNat 5)

/-- The mnemonic as the source spells it. -/
def Mnemonic.name : Mnemonic → String
  | .add => "add"
  | .sub => "sub"
  | .and => "and"
  | .or => "or"
  | .xor => "xor"
  | .sll => "sll"
  | .srl => "srl"
  | .mul => "mul"
  | .div => "div"
  | .rem => "rem"
  | .addi => "addi"
  | .lw => "lw"
  | .jalr => "jalr"
  | .sw => "sw"
  | .beq => "beq"
  | .bne => "bne"
  | .blt => "blt"
  | .bge => "bge"
  | .jal => "jal"
  | .j => "j"

/-- The mnemonic of a decoded word; `unknown` for the Unknown marker (R110). -/
def decodedName : Decoded → String
  | .known i _ => Mnemonic.name i.mnemonic
  | .unknown _ => "unknown"

/-- The ordinal of a fault kind (R281, D5). -/
def faultOrdinal : Fault → Nat
  | .addressError _ _ _ => 1
  | .divisionByZero _ => 2
  | .misalignedTarget _ _ => 3

/-! ### Load and reset -/

/-- A host call that fails; the hardware is untouched and the fault latch is not set (R272, R281, U11, U12). -/
inductive HostError where
  /-- `read_register` of an index outside [0, 32) (R272). -/
  | invalidIndex (index : Nat)
  /-- `read_register` of a name that is no ABI name (R272). -/
  | invalidName (name : String)
  /-- `read_memory_word` or `load_image` out of bounds (R269, R66). -/
  | addressError (addr : Nat)
  /-- `load` of `2^30` words or more (U12). -/
  | programTooLong
  /-- `load_image` after the first cycle (R66, R262). -/
  | alreadyStarted
  deriving DecidableEq, Repr

/-- The reset state of a machine with another `DMEM_BYTES` (R8: a model takes it as an argument). -/
def powerOn (dmemBytes : Nat) : State := { State.reset with dmemBytes := dmemBytes }

/-- The hardware reset `rst`: every element at its reset value, the instruction store kept (R310). -/
def hardReset (s : State) : State := { State.reset with dmemBytes := s.dmemBytes, imem := s.imem }

/-- `load` of a list of words: reset, then `imem` and `N` (R261, R262). -/
def load (s : State) (words : List Word) : Except HostError State :=
  if words.length < Config.programWordsBound then
    .ok { State.reset with dmemBytes := s.dmemBytes, imem := words }
  else .error .programTooLong

/-- `load_image`, after a load and before the first cycle (R66, R262). -/
def loadImage (s : State) (bytes : List Byte) (base : Nat) : Except HostError State :=
  if s.cycle = 0 then
    match imageInto s.dmemBytes s.mem bytes base with
    | some m => .ok { s with mem := m }
    | none => .error (.addressError base)
  else .error .alreadyStarted

/-! ### The end of a run -/

/-- All four stage registers hold the no-op sentinel (R264). -/
def drained (s : State) : Bool :=
  s.ifId.content.isNone && s.idEx.content.isNone && s.exMem.content.isNone && s.memWb.content.isNone

/-- `is_finished()` (R264). -/
def isFinished (s : State) : Bool := drained s

/-- The state the hardware is left in by one call of `step()`: the next state, or, where the cycle faults, the state as
it was with the latch set (R222, R282). With the latch set it changes nothing (R263). -/
def clock (s : State) : State :=
  match step s with
  | .next t => t
  | .fault f => latchFault s f
  | .refused _ => s

/-- One rising edge of the clock with the inputs `rst` and `run_en` (R273): the synchronous reset, else a cycle while the
latch is clear, else nothing (log entry 25). -/
def clockEdge (rst runEn : Bool) (s : State) : State :=
  if rst then hardReset s else if runEn && s.fault.isNone then clock s else s

/-- How a run ended, with the state it left (R266, R268). -/
inductive RunResult where
  | finished (s : State)
  | faulted (f : Fault) (s : State)
  | cycleLimit (s : State)
  | refused (r : Refusal) (s : State)
  deriving DecidableEq, Repr

/-- The loop of R266, at most `fuel` more cycles. -/
def runLoop (maxCycles : Nat) : Nat → State → RunResult
  | 0, s => .cycleLimit s
  | fuel + 1, s =>
    match step s with
    | .fault f => .faulted f (latchFault s f)
    | .refused r => .refused r s
    | .next t =>
      if drained t then .finished t
      else if maxCycles ≤ t.cycle then .cycleLimit t
      else runLoop maxCycles fuel t

/-- `run(max_cycles)`: step first, then test fault, drained, cap (R266, D13). A cycle adds one to `cycle`, so the loop
makes at most `max_cycles - cycle` of them, and always one. -/
def run (s : State) (maxCycles : Nat := Config.defaultMaxCycles) : RunResult :=
  runLoop maxCycles (max 1 (maxCycles - s.cycle)) s

/-! ### Read-back -/

/-- The argument of `read_register` (R269). -/
inductive RegRef where
  | index (n : Nat)
  | name (s : String)
  deriving DecidableEq, Repr

/-- `read_register(index_or_name)` (R269, R272). -/
def readRegister (s : State) (r : RegRef) : Except HostError Word :=
  match r with
  | .index n =>
    match registerRead s.regs n with
    | some v => .ok v
    | none => .error (.invalidIndex n)
  | .name nm =>
    match laneOfName nm with
    | some i => .ok (readLane s.regs i)
    | none => .error (.invalidName nm)

/-- `get_all()`: the 32 lanes in index order (R269). -/
def allRegisters (s : State) : List Word := (List.range 32).map fun k => readLane s.regs (BitVec.ofNat 5 k)

/-- `dump_registers()`: the pairs (name, value) in index order (R269). -/
def dumpRegisters (s : State) : List (String × Word) := abiNames.zip (allRegisters s)

/-- `read_memory_word(addr)` (R269). -/
def readMemoryWord (s : State) (addr : Nat) : Except HostError Word :=
  match readWord s.dmemBytes s.mem addr with
  | some v => .ok v
  | none => .error (.addressError addr)

/-- What the snapshot shows in a stage slot: `nop` for a bubble, else the mnemonic (R270). -/
def slotName {α : Type} (name : α → String) (slot : Slot α) : String :=
  match slot.content with
  | none => "nop"
  | some c => name c

/-- The per-cycle snapshot (R270). -/
structure Snapshot where
  cycle : Nat
  pc : Word
  ifIdName : String
  idExName : String
  exMemName : String
  memWbName : String
  fetchPc : Word
  regs : List Word
  memory : Option (List (Nat × Word))
  deriving DecidableEq, Repr

/-- The optional listing: each word-aligned address written by a store since the load, with its word (R270, D14). -/
def memoryListing (s : State) : List (Nat × Word) :=
  s.touched.filterMap fun a => (readWord s.dmemBytes s.mem a).map fun v => (a, v)

/-- The snapshot of a state, with or without the memory listing (R270, U16). -/
def snapshot (withMemory : Bool) (s : State) : Snapshot where
  cycle := s.cycle
  pc := s.pc
  ifIdName := slotName (fun w => decodedName (decode w)) s.ifId
  idExName := slotName (fun c => decodedName c.instr) s.idEx
  exMemName := slotName (fun c => decodedName c.instr) s.exMem
  memWbName := slotName (fun c => decodedName c.instr) s.memWb
  fetchPc := s.ifId.pc
  regs := allRegisters s
  memory := if withMemory then some (memoryListing s) else none

/-- What `step()` reports to the host (R263). -/
inductive Report where
  | snapshot (v : Snapshot)
  | fault (f : Fault)
  | refused (r : Refusal)
  deriving DecidableEq, Repr

/-- `step()` as the host calls it: the state afterwards, and the snapshot at the end of the cycle or the fault (R263). -/
def hostStep (withMemory : Bool) (s : State) : State × Report :=
  match step s with
  | .next t => (t, .snapshot (snapshot withMemory t))
  | .fault f => (clock s, .fault f)
  | .refused r => (s, .refused r)

end Sys2Proof.Machine
end

