-- ==== Sys2Proof/Machine/Assembler.lean ====
section
/-! DEFINITION. The program-load formats of the host (48_host_interface.md R261) and the two-pass assembler that is the
encode-side twin of the decoder (00_scope.md R5; 30_encoding.md R125 to R133; 60_exceptions.md R290). It is software
beside the hardware: no step reads it. Text is a list of characters. -/

namespace Sys2Proof.Machine

/-! ### Characters -/

/-- White space inside a line. -/
def isBlank (c : Char) : Bool := c = ' ' || c = '\t' || c = '\r'

/-- A token without the white space around it. -/
def trimText (t : List Char) : List Char := ((t.dropWhile isBlank).reverse.dropWhile isBlank).reverse

/-- The pieces of a text between occurrences of a separator. -/
def splitText (sep : Char) : List Char → List (List Char)
  | [] => [[]]
  | c :: t =>
    if c = sep then [] :: splitText sep t
    else
      match splitText sep t with
      | [] => [[c]]
      | p :: ps => (c :: p) :: ps

/-- The value of a digit in a base of at most 16. -/
def digitValue (base : Nat) (c : Char) : Option Nat :=
  let v :=
    if '0' ≤ c ∧ c ≤ '9' then some (c.toNat - '0'.toNat)
    else if 'a' ≤ c ∧ c ≤ 'f' then some (c.toNat - 'a'.toNat + 10)
    else if 'A' ≤ c ∧ c ≤ 'F' then some (c.toNat - 'A'.toNat + 10)
    else none
  v.bind fun n => if n < base then some n else none

/-- The number a digit string denotes, the first digit most significant. -/
def numberFrom (base : Nat) : Nat → List Char → Option Nat
  | acc, [] => some acc
  | acc, c :: t =>
    match digitValue base c with
    | some d => numberFrom base (acc * base + d) t
    | none => none

/-! ### Pre-assembled words (R261) -/

/-- A word as 32 binary or 8 hexadecimal characters, bit 31 first (R261); hexadecimal digits in either case (log entry 22). -/
def wordOfText (t : List Char) : Option Word :=
  if t.length = 32 then (numberFrom 2 0 t).map (BitVec.ofNat 32)
  else if t.length = 8 then (numberFrom 16 0 t).map (BitVec.ofNat 32)
  else none

/-- A file of pre-assembled words, one per line (R261). That empty lines are skipped, and that one line that is no word
makes the whole file no word list, is the model's choice (log entry 22). -/
def wordsOfText (t : List Char) : Option (List Word) :=
  (((splitText '\n' t).map trimText).filter fun l => !l.isEmpty).mapM wordOfText

/-! ### Assembly text -/

/-- The kinds of AssemblyError (R280, R290, R133). -/
inductive AsmErrorKind where
  | unknownMnemonic
  | unresolvedLabel
  | duplicateLabel
  | malformedLabel
  | malformedRegister
  | malformedMemoryOperand
  | malformedImmediate
  | wrongOperandCount
  | immediateRange
  deriving DecidableEq, Repr

/-- An AssemblyError with its source line number (R280). That lines are counted from 1, blank and comment lines with the
others, is the model's choice (log entry 23). -/
structure AsmError where
  line : Nat
  kind : AsmErrorKind
  deriving DecidableEq, Repr

/-- One source line: its number, its label if any, its mnemonic and operands if any (R125). -/
structure SourceLine where
  number : Nat
  label : Option (List Char)
  body : Option (List Char × List (List Char))
  deriving DecidableEq, Repr

/-- A character of a label (log entry 23). -/
def isNameChar (c : Char) : Bool := c.isAlphanum || c = '_' || c = '.'

/-- Mnemonic and comma-separated operands of an instruction text, none for a blank one (R125). White space before the
mnemonic, at the start of the line or after a label's `:`, is dropped: that it may stand there is the model's choice (log
entry 23). -/
def bodyOf (t : List Char) : Option (List Char × List (List Char)) :=
  match trimText t with
  | [] => none
  | u =>
    let args := trimText (u.dropWhile fun c => !isBlank c)
    some (u.takeWhile fun c => !isBlank c, if args.isEmpty then [] else (splitText ',' args).map trimText)

/-- A line of text: comment stripped, an optional `label:` prefix, an optional instruction (R125). The label is what stands
before the first `:`, without the white space around it: that white space may stand at the start of the line, before the
label, and between the name and the `:` is the model's choice (log entry 23). -/
def sourceLine (number : Nat) (t : List Char) : SourceLine :=
  let code := t.takeWhile fun c => c != '#'
  if code.contains ':' then
    { number := number
      label := some (trimText (code.takeWhile fun c => c != ':'))
      body := bodyOf ((code.dropWhile fun c => c != ':').drop 1) }
  else { number := number, label := none, body := bodyOf code }

/-- The lines of a text, numbered from `n`. -/
def sourceLines : Nat → List (List Char) → List SourceLine
  | _, [] => []
  | n, t :: ts => sourceLine n t :: sourceLines (n + 1) ts

/-- The label table of pass 1. -/
abbrev Labels := List (List Char × Nat)

/-- Pass 1: each label names the current address; an instruction advances the address by 4; labels are unique (R125,
R126). -/
def labelPass : List SourceLine → Nat → Labels → Except AsmError Labels
  | [], _, labels => .ok labels
  | l :: ls, addr, labels =>
    let next := if l.body.isSome then addr + 4 else addr
    match l.label with
    | none => labelPass ls next labels
    | some nm =>
      if nm.isEmpty || !(nm.all isNameChar) then .error { line := l.number, kind := .malformedLabel }
      else if (labels.lookup nm).isSome then .error { line := l.number, kind := .duplicateLabel }
      else labelPass ls next ((nm, addr) :: labels)

/-- A register operand: an ABI name (R128). -/
def regOperand (t : List Char) : Except AsmErrorKind RegIdx :=
  match laneOfName (String.ofList t) with
  | some r => .ok r
  | none => .error .malformedRegister

/-- A decimal integer with an optional leading `-` (R133); leading zeros are accepted (log entry 23). -/
def integerOf (t : List Char) : Option Int :=
  match t with
  | [] => none
  | '-' :: [] => none
  | '-' :: ds => (numberFrom 10 0 ds).map fun n => -(n : Int)
  | ds => (numberFrom 10 0 ds).map fun n => (n : Int)

/-- An immediate operand (R133). -/
def immOperand (t : List Char) : Except AsmErrorKind Int :=
  match integerOf t with
  | some v => .ok v
  | none => .error .malformedImmediate

/-- A memory operand `imm(reg)` (R130). -/
def memOperand (t : List Char) : Except AsmErrorKind (Int × RegIdx) :=
  let rest := (t.dropWhile fun c => c != '(').drop 1
  match integerOf (t.takeWhile fun c => c != '('), rest.reverse with
  | some v, ')' :: nm => (regOperand nm.reverse).map fun r => (v, r)
  | _, _ => .error .malformedMemoryOperand

/-- A branch or jump operand: the label's address less the address of the instruction (R127, R131). -/
def offsetOperand (labels : Labels) (addr : Nat) (t : List Char) : Except AsmErrorKind Int :=
  match labels.lookup t with
  | some a => .ok ((a : Int) - (addr : Int))
  | none => .error .unresolvedLabel

/-- `op rd, rs1, rs2` (R129). -/
def operandsR (make : RegIdx → RegIdx → RegIdx → Instr) : List (List Char) → Except AsmErrorKind Instr
  | [d, a, b] => do return make (← regOperand d) (← regOperand a) (← regOperand b)
  | _ => .error .wrongOperandCount

/-- `op rd, imm(rs1)` (R129). -/
def operandsMem (make : RegIdx → RegIdx → Int → Instr) : List (List Char) → Except AsmErrorKind Instr
  | [d, m] => do
    let r ← regOperand d
    let (imm, base) ← memOperand m
    return make r base imm
  | _ => .error .wrongOperandCount

/-- `op rs1, rs2, label` (R129). -/
def operandsBranch (make : RegIdx → RegIdx → Int → Instr) (labels : Labels) (addr : Nat) :
    List (List Char) → Except AsmErrorKind Instr
  | [a, b, l] => do return make (← regOperand a) (← regOperand b) (← offsetOperand labels addr l)
  | _ => .error .wrongOperandCount

/-- The mnemonic a lower-case token names (R128, R133). -/
def mnemonicOfName (t : List Char) : Option Mnemonic := allMnemonics.find? fun m => (Mnemonic.name m).toList == t

/-- The instruction of one line, by the operand order of its mnemonic (R129). -/
def instrOfTokens (labels : Labels) (addr : Nat) (m : Mnemonic) (args : List (List Char)) : Except AsmErrorKind Instr :=
  match m with
  | .add => operandsR .add args
  | .sub => operandsR .sub args
  | .and => operandsR .and args
  | .or => operandsR .or args
  | .xor => operandsR .xor args
  | .sll => operandsR .sll args
  | .srl => operandsR .srl args
  | .mul => operandsR .mul args
  | .div => operandsR .div args
  | .rem => operandsR .rem args
  | .addi =>
    match args with
    | [d, a, v] => do return .addi (← regOperand d) (← regOperand a) (← immOperand v)
    | _ => .error .wrongOperandCount
  | .lw => operandsMem .lw args
  | .jalr => operandsMem .jalr args
  | .sw => operandsMem (fun data base imm => .sw base data imm) args
  | .beq => operandsBranch .beq labels addr args
  | .bne => operandsBranch .bne labels addr args
  | .blt => operandsBranch .blt labels addr args
  | .bge => operandsBranch .bge labels addr args
  | .jal =>
    match args with
    | [d, l] => do return .jal (← regOperand d) (← offsetOperand labels addr l)
    | _ => .error .wrongOperandCount
  | .j =>
    match args with
    | [l] => do return .j (← offsetOperand labels addr l)
    | _ => .error .wrongOperandCount

/-- The word of one line (R127); an immediate outside its range is an AssemblyError (R115, R133). -/
def wordOfTokens (labels : Labels) (addr : Nat) (name : List Char) (args : List (List Char)) : Except AsmErrorKind Word :=
  match mnemonicOfName name with
  | none => .error .unknownMnemonic
  | some m =>
    match instrOfTokens labels addr m args with
    | .error k => .error k
    | .ok i =>
      match encode i with
      | some w => .ok w
      | none => .error .immediateRange

/-- Pass 2: the words, in order, with a fresh running address; the first error aborts (R127, R290). -/
def encodePass (labels : Labels) : List SourceLine → Nat → Except AsmError (List Word)
  | [], _ => .ok []
  | l :: ls, addr =>
    match l.body with
    | none => encodePass labels ls addr
    | some (name, args) =>
      match wordOfTokens labels addr name args with
      | .error k => .error { line := l.number, kind := k }
      | .ok w => (encodePass labels ls (addr + 4)).map fun ws => w :: ws

/-- The two passes over a text (R125 to R127), its first line numbered 1 (the model's choice, log entry 23). -/
def assembleText (t : List Char) : Except AsmError (List Word) :=
  let lines := sourceLines 1 (splitText '\n' t)
  match labelPass lines 0 [] with
  | .error e => .error e
  | .ok labels => encodePass labels lines 0

/-- The two passes over a string. -/
def assemble (source : String) : Except AsmError (List Word) := assembleText source.toList

/-- How a `load` of text can fail: nothing is loaded. -/
inductive LoadError where
  /-- The assembly text does not assemble (R290, U12). -/
  | assembly (e : AsmError)
  /-- A line of a word file is neither 32 binary nor 8 hexadecimal digits; R261 is silent on it, and that the load is
  refused is the model's choice (log entry 22). -/
  | malformedWord
  /-- `load` itself refuses the words (U12). -/
  | host (e : HostError)
  deriving DecidableEq, Repr

/-- `load` of assembly text (R261 (a)). -/
def loadAssembly (s : State) (source : List Char) : Except LoadError State :=
  match assembleText source with
  | .error e => .error (.assembly e)
  | .ok ws => (load s ws).mapError LoadError.host

/-- `load` of pre-assembled words in text form (R261 (b)). That a line which is neither 32 binary nor 8 hexadecimal digits
refuses the whole load, with nothing loaded and no line reported, is the model's choice: R261 is silent on it (log
entry 22). -/
def loadWordText (s : State) (source : List Char) : Except LoadError State :=
  match wordsOfText source with
  | none => .error .malformedWord
  | some ws => (load s ws).mapError LoadError.host

end Sys2Proof.Machine
end

