-- ==== Sys2Proof/Machine/Synchronous.lean ====
section
/-! DEFINITION. The same cycle written as 45_pipeline_engine.md R247 writes it: every new value computed from the values
the state elements hold at the start of the cycle (unprimed), by format and mnemonic, with no order among the stages
except the explicit read of WB's value in ID (R239). It is a second, independent definition; that `step` equals it is
an obligation. -/

namespace Sys2Proof.Machine

/-- The known instruction of a stage register's record. -/
def knownInstr : Decoded → Option Instr
  | .known i _ => some i
  | .unknown _ => none

/-- `rf_we` (R223). -/
def rfWe (s : State) : Bool :=
  match s.memWb.content with
  | none => false
  | some c =>
    match knownInstr c.instr with
    | none => false
    | some i => i.format == .r || i.format == .i || i.format == .j

/-- `rf_waddr` (R223). -/
def rfWaddr (s : State) : RegIdx :=
  match s.memWb.content with
  | none => 0
  | some c => ((knownInstr c.instr).bind Instr.rd?).getD 0

/-- `rf_wdata` (R223). -/
def rfWdata (s : State) : Word :=
  match s.memWb.content with
  | none => 0
  | some c => c.result

/-- `rf_read(r)` (R239). -/
def rfRead (s : State) (r : RegIdx) : Word :=
  if r = 0#5 then 0#32 else if rfWe s && r == rfWaddr s then rfWdata s else readLane s.regs r

/-- The ALU operation of a mnemonic, none where the ALU is not driven (the table of R231). -/
def aluOpOf : Mnemonic → Option AluOp
  | .add => some .add
  | .sub => some .sub
  | .and => some .and
  | .or => some .or
  | .xor => some .xor
  | .sll => some .sll
  | .srl => some .srl
  | .mul => some .mul
  | .div => some .div
  | .rem => some .rem
  | .addi => some .add
  | .lw => some .add
  | .sw => some .add
  | .jalr | .beq | .bne | .blt | .bge | .jal | .j => none

/-- MEM_WB', mem' and the addresses noted, from EX_MEM and mem (R226 to R229). -/
def syncMem (s : State) : Except Fault (Slot MemWbData × Memory × List Nat) :=
  match s.exMem.content with
  | none => .ok (bubble s.exMem.pc, s.mem, s.touched)
  | some c =>
    let addr := c.aluResult
    let slot (r : Word) : Slot MemWbData := { pc := s.exMem.pc, content := some { instr := c.instr, result := r } }
    match (knownInstr c.instr).map Instr.mnemonic with
    | some .lw =>
      if addr.toNat + 4 ≤ s.dmemBytes then .ok (slot (wordAt s.mem addr.toNat), s.mem, s.touched)
      else .error (.addressError .load addr s.exMem.pc)
    | some .sw =>
      if addr.toNat + 4 ≤ s.dmemBytes then
        .ok (slot c.aluResult, setWord s.mem addr.toNat c.rs2Val, noteStore s.touched addr.toNat)
      else .error (.addressError .store addr s.exMem.pc)
    | _ => .ok (slot c.aluResult, s.mem, s.touched)

/-- EX_MEM' from ID_EX (R230 to R236). -/
def syncEx (s : State) : Except Fault (Slot ExMemData) :=
  match s.idEx.content with
  | none => .ok (bubble s.idEx.pc)
  | some c =>
    let slot (r : Word) : Slot ExMemData :=
      { pc := s.idEx.pc, content := some { instr := c.instr, aluResult := r, rs2Val := c.rs2Val } }
    match knownInstr c.instr with
    | none => .ok (slot 0)
    | some i =>
      match aluOpOf i.mnemonic with
      | some op =>
        match operate op c.rs1Val (secondOperand i.imm? c.rs2Val) with
        | .value r => .ok (slot r)
        | .divisionByZero => .error (.divisionByZero s.idEx.pc)
      | none => if i.format = .b then .ok (slot 0) else .ok (slot (linkValue s.idEx.pc))

/-- `taken` of R240. -/
def syncTaken (i : Instr) (rs1Val rs2Val : Word) : Bool :=
  match i.mnemonic with
  | .beq => rs1Val == rs2Val
  | .bne => rs1Val != rs2Val
  | .blt => decide (signed rs1Val < signed rs2Val)
  | .bge => decide (signed rs1Val ≥ signed rs2Val)
  | .jal | .j | .jalr => true
  | _ => false

/-- `target` of R240. -/
def syncTarget (i : Instr) (pcOfInstr rs1Val : Word) : Word :=
  match i.mnemonic with
  | .jalr => indirectTarget rs1Val (i.imm?.getD 0)
  | _ => relativeTarget pcOfInstr (i.imm?.getD 0)

/-- An operand value of ID: `rf_read` of the register, or 0 where the format has none (R238). -/
def syncOperand (s : State) (r : Option RegIdx) : Word :=
  match r with
  | some r => rfRead s r
  | none => 0#32

/-- ID_EX', and the target if a transfer is taken (R237 to R241). -/
def syncId (s : State) : Except Fault (Slot IdExData × Option Word) :=
  match s.ifId.content with
  | none => .ok (bubble s.ifId.pc, none)
  | some w =>
    let d := decode w
    let a := syncOperand s ((knownInstr d).bind Instr.rs1?)
    let b := syncOperand s ((knownInstr d).bind Instr.rs2?)
    let slot : Slot IdExData := { pc := s.ifId.pc, content := some { instr := d, rs1Val := a, rs2Val := b } }
    match knownInstr d with
    | none => .ok (slot, none)
    | some i =>
      if syncTaken i a b then
        let t := syncTarget i s.ifId.pc a
        if t.toNat % 4 = 0 then .ok (slot, some t) else .error (.misalignedTarget t s.ifId.pc)
      else .ok (slot, none)

/-- IF_ID' and pc' (R243 to R246). -/
def syncIf (s : State) (target : Option Word) : Slot Word × Word :=
  match target with
  | some t => (bubble t, t)
  | none =>
    if s.pc.toNat < 4 * s.imem.length then
      ({ pc := s.pc, content := s.imem[s.pc.toNat / 4]? }, s.pc + 4#32)
    else (bubble s.pc, s.pc)

/-- The whole cycle (R247): the first raise in the order MEM, EX, ID is the one reported (R288). -/
def syncCycle (s : State) : StepOutcome :=
  match syncMem s with
  | .error f => .fault f
  | .ok (memWb', mem', touched') =>
    match syncEx s with
    | .error f => .fault f
    | .ok exMem' =>
      match syncId s with
      | .error f => .fault f
      | .ok (idEx', target) =>
        .next { s with
          regs := if rfWe s then writeLane s.regs (rfWaddr s) (rfWdata s) else s.regs
          pc := (syncIf s target).2
          ifId := (syncIf s target).1
          idEx := idEx'
          exMem := exMem'
          memWb := memWb'
          mem := mem'
          touched := touched'
          cycle := s.cycle + 1
          stage := .id }

end Sys2Proof.Machine
end

