-- ==== Sys2Proof/Safety.lean ====
section
/-! DEFINITION. What claims are stated in: the invariant that every cycle keeps, and a run of cycles without a fault. -/

namespace Sys2Proof

/-- An in-flight record is the decoding of the program word at the address it carries. -/
def Machine.fromProgram (imem : List Word) (pc : Word) (d : Decoded) : Prop :=
  ∃ w, Machine.instructionFetch imem pc = some w ∧ d = decode w

/-- The invariant of the machine: what holds at reset and after every load, and is kept by every cycle. -/
structure Machine.Inv (s : Machine.State) : Prop where
  /-- `pc` is a multiple of 4 (10_state.md R29). -/
  pcAligned : s.pc.toNat % 4 = 0
  /-- The program is shorter than `2^30` words (R8), so `pc + 4` never wraps (R31). -/
  programBound : s.imem.length < Config.programWordsBound
  /-- `1 <= DMEM_BYTES <= 2^32` (R8). -/
  capacity : 1 ≤ s.dmemBytes ∧ s.dmemBytes ≤ Config.maxDmemBytes
  /-- The memory is in canonical form. -/
  memoryWf : Machine.Memory.wf s.mem = true
  /-- No byte at or beyond the capacity (20_memory.md R61). -/
  memoryWithin : Machine.Memory.within s.dmemBytes s.mem = true
  /-- Lane 0 holds 0 (10_state.md R24). -/
  laneZero : s.regs[0] = 0
  /-- The noted store addresses are multiples of 4 below the capacity. -/
  touchedAligned : ∀ a ∈ s.touched, a % 4 = 0 ∧ a < s.dmemBytes
  /-- Between cycles the stage field rests at `id`. -/
  stageRests : s.stage = .id
  /-- IF_ID holds the program word at its address (45_pipeline_engine.md R243). -/
  ifIdFetched : ∀ w, s.ifId.content = some w → Machine.instructionFetch s.imem s.ifId.pc = some w
  /-- ID_EX holds the decoding of a program word (R238). -/
  idExDecoded : ∀ c, s.idEx.content = some c → Machine.fromProgram s.imem s.idEx.pc c.instr
  /-- EX_MEM holds the decoding of a program word. -/
  exMemDecoded : ∀ c, s.exMem.content = some c → Machine.fromProgram s.imem s.exMem.pc c.instr
  /-- MEM_WB holds the decoding of a program word. -/
  memWbDecoded : ∀ c, s.memWb.content = some c → Machine.fromProgram s.imem s.memWb.pc c.instr

/-- A safe run: `k` cycles from `s` without a fault end in `t` (48_host_interface.md R268). -/
def Machine.cyclesTo (k : Nat) (s t : Machine.State) : Prop := core.run k s = .next t

end Sys2Proof
end

