-- ==== Sys2Proof/Certificates/Slice0/Obligations.lean ====
section
/-! DEFINITION. The statements for the provers. Each docstring names the rules of spec/ it formalises. -/

open Sys2Proof Sys2Proof.Machine

namespace Sys2Proof.Claims

/-! ### Vocabulary -/

/-- The word `w` decodes to the instruction `i`. -/
def Is (w : Word) (i : Instr) : Prop := decode w = .known i (rawOf w)

/-- The record `d` is the known instruction `i`. -/
def Holds (d : Decoded) (i : Instr) : Prop := ∃ raw, d = .known i raw

/-- The record `d` is an Unknown marker. -/
def IsUnknown (d : Decoded) : Prop := ∃ raw, d = .unknown raw

/-- What ID does with operands `src1`, `src2` of an instruction that takes no transfer: ID_EX gets the record and the
operand values, and IF fetches (45_pipeline_engine.md R238, R243, R244). -/
def issued (s : State) (w : Word) (src1 src2 : Option RegIdx) : State :=
  { s with idEx := ⟨s.ifId.pc, some ⟨decode w, sourceValue s src1, sourceValue s src2⟩⟩ }

/-- ID of a plain instruction completes: operands read, the next word fetched. -/
def IdReads (i : Instr) (src1 src2 : Option RegIdx) : Prop :=
  ∀ s w, s.stage = .id → s.ifId.content = some w → exec i s = .next (fetch (issued s w src1 src2))

/-- EX completes with the result `f pc rs1_val rs2_val` wherever `ok rs1_val rs2_val` holds. -/
def ExGives (i : Instr) (ok : Word → Word → Prop) (f : Word → Word → Word → Word) : Prop :=
  ∀ s c, s.stage = .ex → s.idEx.content = some c → ok c.rs1Val c.rs2Val →
    exec i s = .next { s with exMem := ⟨s.idEx.pc, some ⟨c.instr, f s.idEx.pc c.rs1Val c.rs2Val, c.rs2Val⟩⟩ }

/-- MEM passes the result through and touches no memory (R229). -/
def MemPasses (i : Instr) : Prop :=
  ∀ s c, s.stage = .mem → s.exMem.content = some c →
    exec i s = .next { s with memWb := ⟨s.exMem.pc, some ⟨c.instr, c.aluResult⟩⟩ }

/-- WB writes the result to `rd`, and nothing where `rd` is lane 0 (R223; 10_state.md R23). -/
def WbWrites (i : Instr) (rd : RegIdx) : Prop :=
  ∀ s c, s.stage = .wb → s.memWb.content = some c →
    exec i s = .next { s with regs := if rd = 0#5 then s.regs else s.regs.set rd.toNat c.result }

/-- WB writes nothing (R224). -/
def WbKeeps (i : Instr) : Prop := ∀ s, s.stage = .wb → exec i s = .next s

/-- The four stages of an R-format instruction whose result is `f rs1_val rs2_val` where `ok` holds. -/
def RFormat (make : RegIdx → RegIdx → RegIdx → Instr) (ok : Word → Word → Prop) (f : Word → Word → Word) : Prop :=
  ∀ rd rs1 rs2, IdReads (make rd rs1 rs2) (some rs1) (some rs2) ∧
    ExGives (make rd rs1 rs2) ok (fun _ a b => f a b) ∧ MemPasses (make rd rs1 rs2) ∧ WbWrites (make rd rs1 rs2) rd

/-- ID of a control transfer with the given operands: not taken, IF fetches; taken to a multiple of 4, `pc` becomes the
target and the fetch is flushed (R240, R245). -/
def IdTransfers (i : Instr) (src1 src2 : Option RegIdx) (takes : Word → Word → Prop)
    (target : Word → Word → Word) : Prop :=
  ∀ s w, s.stage = .id → s.ifId.content = some w →
    (¬ takes (sourceValue s src1) (sourceValue s src2) → exec i s = .next (fetch (issued s w src1 src2))) ∧
    (takes (sourceValue s src1) (sourceValue s src2) →
      (target s.ifId.pc (sourceValue s src1)).toNat % 4 = 0 →
      exec i s = .next { issued s w src1 src2 with
        ifId := ⟨target s.ifId.pc (sourceValue s src1), none⟩
        pc := target s.ifId.pc (sourceValue s src1) })

/-- ID of a control transfer taken to an address that is no multiple of 4 raises MisalignedTarget (R241). -/
def IdTraps (i : Instr) (src1 src2 : Option RegIdx) (takes : Word → Word → Prop) (target : Word → Word → Word) : Prop :=
  ∀ s w, s.stage = .id → s.ifId.content = some w → takes (sourceValue s src1) (sourceValue s src2) →
    (target s.ifId.pc (sourceValue s src1)).toNat % 4 ≠ 0 →
    exec i s = .fault (.misalignedTarget (target s.ifId.pc (sourceValue s src1)) s.ifId.pc)

/-- `u32(pc_of_instruction + imm)` as the address it is. -/
def relative (imm : Int) (pcOfInstr _rs1Val : Word) : Word := BitVec.ofInt 32 (pcOfInstr.toNat + imm)

/-- `u32(rs1_val + imm)` with bit 0 cleared: the sum less its remainder by 2. -/
def indirect (imm : Int) (_pcOfInstr rs1Val : Word) : Word :=
  BitVec.ofInt 32 ((rs1Val.toNat + imm) % 2 ^ 32 - (rs1Val.toNat + imm) % 2)

/-- A branch in its four stages. -/
def Branch (make : RegIdx → RegIdx → Int → Instr) (takes : Word → Word → Prop) : Prop :=
  ∀ rs1 rs2 imm, IdTransfers (make rs1 rs2 imm) (some rs1) (some rs2) takes (relative imm) ∧
    ExGives (make rs1 rs2 imm) (fun _ _ => True) (fun _ _ _ => 0#32) ∧ MemPasses (make rs1 rs2 imm) ∧
    WbKeeps (make rs1 rs2 imm)

/-- A jump in its four stages: always taken, linking `rd`. -/
def Jump (i : Instr) (rd : RegIdx) (src : Option RegIdx) (target : Word → Word → Word) : Prop :=
  IdTransfers i src none (fun _ _ => True) target ∧
    ExGives i (fun _ _ => True) (fun pcOfInstr _ _ => BitVec.ofNat 32 (pcOfInstr.toNat + 4)) ∧ MemPasses i ∧
    WbWrites i rd

/-- The instruction goes through ID, EX, MEM and WB on one state, with no other instruction in between: its architectural
effect (41_r_format_arithmetic.md R170). -/
def through (i : Instr) (s : State) : StepOutcome :=
  andThen (andThen (andThen (exec i (atStage .id s)) fun s => exec i (atStage .ex s)) fun s => exec i (atStage .mem s))
    fun s => exec i (atStage .wb s)

/-- The instruction completes, writes `v` to `rd` and stores nothing. -/
def Delivers (i : Instr) (s : State) (rd : RegIdx) (v : Word) : Prop :=
  ∃ t, through i s = .next t ∧ t.mem = s.mem ∧
    ∀ k, readLane t.regs k = if k = rd ∧ k ≠ 0#5 then v else readLane s.regs k

/-- A control transfer is taken to `target` by the instruction in ID (R240, with the register values of R239). -/
def Taken (s : State) (target : Word) : Prop :=
  ∃ w i, s.ifId.content = some w ∧ Is w i ∧
    syncTaken i (syncOperand s i.rs1?) (syncOperand s i.rs2?) = true ∧
    target = syncTarget i s.ifId.pc (syncOperand s i.rs1?)

/-- The value a register-writing instruction delivers, from its address, the operand values read in ID and the memory of
its MEM cycle; none for the instructions that write no register, and where it faults. -/
def resultOf (i : Instr) (pcOfInstr a b : Word) (capacity : Nat) (m : Memory) : Option Word :=
  match i with
  | .add _ _ _ => some (a + b)
  | .sub _ _ _ => some (a - b)
  | .and _ _ _ => some (a &&& b)
  | .or _ _ _ => some (a ||| b)
  | .xor _ _ _ => some (a ^^^ b)
  | .sll _ _ _ => some (a <<< (b.toNat % 32))
  | .srl _ _ _ => some (a >>> (b.toNat % 32))
  | .mul _ _ _ => some (a * b)
  | .div _ _ _ => if b = 0#32 then none else some (BitVec.ofNat 32 (a.toNat / b.toNat))
  | .rem _ _ _ => if b = 0#32 then none else some (BitVec.ofNat 32 (a.toNat % b.toNat))
  | .addi _ _ imm => some (BitVec.ofInt 32 (a.toNat + imm))
  | .lw _ _ imm => readWord capacity m (BitVec.ofInt 32 (a.toNat + imm) : Word).toNat
  | .jalr _ _ _ => some (BitVec.ofNat 32 (pcOfInstr.toNat + 4))
  | .jal _ _ => some (BitVec.ofNat 32 (pcOfInstr.toNat + 4))
  | .j _ => some (BitVec.ofNat 32 (pcOfInstr.toNat + 4))
  | .sw _ _ _ | .beq _ _ _ | .bne _ _ _ | .blt _ _ _ | .bge _ _ _ => none

/-- An instruction that can redirect `pc` (43_control_transfer.md R211). -/
def isTransfer : Decoded → Bool
  | .known i _ => i.format == .b || i.format == .j || i.mnemonic == .jalr
  | .unknown _ => false

end Sys2Proof.Claims

open Sys2Proof.Claims

/-! ### The codec -/

/-- 30_encoding.md R121: decode after encode, for every well-formed instruction with every operand value, and for the
spelling `jal` with `rd = 0` of `j`. The opcode numbers and the encoder's domain are the spec's decisions D1 and D11
(log entries 3, 17). -/
def Obligations.DecodeAfterEncode : Prop :=
  (∀ i : Instr, i.WellFormed → ∃ w, encode i = some w ∧ Is w i) ∧
  (∀ imm : Int, immFits21 imm = true →
    ∃ w, encode (.jal 0 imm) = some w ∧ encode (.j imm) = some w ∧ Is w (.j imm))

/-- R122: encode after decode, for every word that is not Unknown. -/
def Obligations.EncodeAfterDecode : Prop :=
  ∀ w : Word, ¬ IsUnknown (decode w) → encodeDecoded (decode w) = some w

/-- R123: two different known words never decode to the same instruction; two different well-formed instructions never
encode to the same word; and any two instructions that encode to the same word are the same but for the spelling `jal` with
`rd = 0` of `j`. That the spelling is accepted, and the encoder's domain, is the spec's decision D11, and the opcode numbers
are D1 (log entries 17, 3). -/
def Obligations.CodecIsInjective : Prop :=
  (∀ w w' i, Is w i → Is w' i → w = w') ∧
  (∀ i i' w, i.WellFormed → i'.WellFormed → encode i = some w → encode i' = some w → i = i') ∧
  (∀ i i' w, encode i = some w → encode i' = some w → i.asDecoded = i'.asDecoded)

/-- R106, R111, R115: whatever decodes is well formed: every operand in the range of its field, `jal` never with `rd = 0`.
Rests on the encoder's domain (decision D11, log entry 17). -/
def Obligations.DecodedIsWellFormed : Prop :=
  ∀ w i, Holds (decode w) i → i.WellFormed

/-- R103: no two rows of the opcode map accept the same word (`jal` and `j` being told apart by `rd`). Rests on the opcode
numbers (decision D1, log entry 3). -/
def Obligations.OpcodeKeysAreDisjoint : Prop :=
  ∀ (w : Word) (m m' : Mnemonic), hasKey w (keyOf m) = true → hasKey w (keyOf m') = true → m = m'

/-- R114: the words that are Unknown, exhaustively, (a) to (g); the marker carries the raw fields (R113). Rests on the
opcode numbers (decision D1, log entry 3); the marker's raw fields (log entry 24). -/
def Obligations.UnknownWordsExactly : Prop :=
  ∀ w : Word, decode w = .unknown (rawOf w) ↔
    (opcodeOf w ∉ [0x33#7, 0x13#7, 0x03#7, 0x67#7, 0x23#7, 0x63#7, 0x6F#7]) ∨
    (opcodeOf w = 0x33#7 ∧ (funct3Of w, funct7Of w) ∉
      [(0#3, 0#7), (0#3, 0x20#7), (1#3, 0#7), (4#3, 0#7), (5#3, 0#7), (6#3, 0#7), (7#3, 0#7),
       (0#3, 1#7), (4#3, 1#7), (6#3, 1#7)]) ∨
    (opcodeOf w = 0x13#7 ∧ funct3Of w ≠ 0#3) ∨
    (opcodeOf w = 0x03#7 ∧ funct3Of w ≠ 2#3) ∨
    (opcodeOf w = 0x67#7 ∧ funct3Of w ≠ 0#3) ∨
    (opcodeOf w = 0x23#7 ∧ funct3Of w ≠ 2#3) ∨
    (opcodeOf w = 0x63#7 ∧ funct3Of w ∈ [2#3, 3#3, 6#3, 7#3])

/-- R115: `encode` refuses an immediate outside its format's range, and an odd one for B and J. Rests on the encoder's
domain (decision D11, log entry 17). -/
def Obligations.EncodeRefusesOutOfRange : Prop :=
  (∀ rd rs1 imm, encode (.addi rd rs1 imm) = none ↔ imm < -2048 ∨ 2047 < imm) ∧
  (∀ rd rs1 imm, encode (.lw rd rs1 imm) = none ↔ imm < -2048 ∨ 2047 < imm) ∧
  (∀ rd rs1 imm, encode (.jalr rd rs1 imm) = none ↔ imm < -2048 ∨ 2047 < imm) ∧
  (∀ rs1 rs2 imm, encode (.sw rs1 rs2 imm) = none ↔ imm < -2048 ∨ 2047 < imm) ∧
  (∀ rs1 rs2 imm, encode (.beq rs1 rs2 imm) = none ↔ imm < -4096 ∨ 4094 < imm ∨ imm % 2 = 1) ∧
  (∀ rs1 rs2 imm, encode (.bne rs1 rs2 imm) = none ↔ imm < -4096 ∨ 4094 < imm ∨ imm % 2 = 1) ∧
  (∀ rs1 rs2 imm, encode (.blt rs1 rs2 imm) = none ↔ imm < -4096 ∨ 4094 < imm ∨ imm % 2 = 1) ∧
  (∀ rs1 rs2 imm, encode (.bge rs1 rs2 imm) = none ↔ imm < -4096 ∨ 4094 < imm ∨ imm % 2 = 1) ∧
  (∀ rd imm, encode (.jal rd imm) = none ↔ imm < -1048576 ∨ 1048574 < imm ∨ imm % 2 = 1) ∧
  (∀ imm, encode (.j imm) = none ↔ imm < -1048576 ∨ 1048574 < imm ∨ imm % 2 = 1) ∧
  (∀ raw, encodeDecoded (.unknown raw) = none)

/-- R116, worked examples: words of the spec decode to the instructions they stand for, one or more of each format. Rests on
the opcode numbers (decision D1, log entry 3). -/
def Obligations.SpecWordsDecode : Prop :=
  Is 0x006283B3#32 (.add 7 5 6) ∧ Is 0x40C58533#32 (.sub 10 11 12) ∧ Is 0x02B50533#32 (.mul 10 10 11) ∧
  Is 0xFFF28293#32 (.addi 5 5 (-1)) ∧ Is 0xFFC42503#32 (.lw 10 8 (-4)) ∧ Is 0x00008067#32 (.jalr 0 1 0) ∧
  Is 0xFEA42E23#32 (.sw 8 10 (-4)) ∧ Is 0xFE029AE3#32 (.bne 5 0 (-12)) ∧ Is 0x000000E3#32 (.beq 0 0 2048) ∧
  Is 0x001000EF#32 (.jal 1 2048) ∧ Is 0x000010EF#32 (.jal 1 4096) ∧ Is 0xFF1FF06F#32 (.j (-16))

/-- R127: every word the assembler produces is the word of a known instruction, which encodes back to it. Rests on the
assembler's syntax (decision D18, log entry 23); the encoder's domain (decision D11, log entry 17). -/
def Obligations.AssembledWordsRoundTrip : Prop :=
  ∀ (source : List Char) (ws : List Word), assembleText source = .ok ws →
    ∀ w ∈ ws, ∃ i, Is w i ∧ encode i = some w

/-! ### The ALU -/

/-- 40_alu.md R142, R143, R152: ADD, SUB and MUL wrap modulo 2^32 and never fail; each gives the same bits on the signed
readings (R159). -/
def Obligations.AluAddSubMul : Prop :=
  ∀ a b : Word,
    (∃ r, operate .add a b = .value r ∧ r.toNat = (a.toNat + b.toNat) % 2 ^ 32 ∧ r = u32 (signed a + signed b)) ∧
    (∃ r, operate .sub a b = .value r ∧
      r.toNat = (if b.toNat ≤ a.toNat then a.toNat - b.toNat else a.toNat + 2 ^ 32 - b.toNat) ∧
      r = u32 (signed a - signed b)) ∧
    (∃ r, operate .mul a b = .value r ∧ r.toNat = (a.toNat * b.toNat) % 2 ^ 32 ∧ r = u32 (signed a * signed b))

/-- R144 to R148: AND, OR, XOR, NOR and NOT bit by bit, NOT ignoring `b`. -/
def Obligations.AluBitwise : Prop :=
  ∀ (a b : Word) (k : Nat), k < 32 →
    (∃ r, operate .and a b = .value r ∧ r.getLsbD k = (a.getLsbD k && b.getLsbD k)) ∧
    (∃ r, operate .or a b = .value r ∧ r.getLsbD k = (a.getLsbD k || b.getLsbD k)) ∧
    (∃ r, operate .xor a b = .value r ∧ r.getLsbD k = (a.getLsbD k != b.getLsbD k)) ∧
    (∃ r, operate .nor a b = .value r ∧ r.getLsbD k = (!a.getLsbD k && !b.getLsbD k)) ∧
    (∃ r, operate .not a b = .value r ∧ r.getLsbD k = !a.getLsbD k)

/-- R149, R155: SLT compares the signed readings; the signed reading of a word is `v` below 2^31, else `v - 2^32`, so it lies
in [-2^31, 2^31 - 1]. -/
def Obligations.AluSignedCompare : Prop :=
  (∀ v : Word, signed v = (if v.toNat < 2 ^ 31 then (v.toNat : Int) else (v.toNat : Int) - 2 ^ 32) ∧
    -2 ^ 31 ≤ signed v ∧ signed v ≤ 2 ^ 31 - 1) ∧
  (∀ a b : Word, operate .slt a b = .value (if signed a < signed b then 1#32 else 0#32))

/-- R150, R151: DIV and REM are the unsigned quotient and remainder, and fail exactly on a zero divisor. -/
def Obligations.AluDivRem : Prop :=
  ∀ a b : Word,
    (b.toNat = 0 → operate .div a b = .divisionByZero ∧ operate .rem a b = .divisionByZero) ∧
    (b.toNat ≠ 0 → ∃ q r, operate .div a b = .value q ∧ operate .rem a b = .value r ∧
      q.toNat = a.toNat / b.toNat ∧ r.toNat < b.toNat ∧ a.toNat = b.toNat * q.toNat + r.toNat)

/-- R153, R154: SLL and SRL shift by the low 5 bits of `b`, logically. -/
def Obligations.AluShifts : Prop :=
  ∀ a b : Word,
    (∃ r, operate .sll a b = .value r ∧ r.toNat = (a.toNat * 2 ^ (b.toNat % 32)) % 2 ^ 32) ∧
    (∃ r, operate .srl a b = .value r ∧ r.toNat = a.toNat / 2 ^ (b.toNat % 32))

/-- R140: the `div_by_zero` port is 1 exactly for DIV or REM with `b = 0`; otherwise `result` is the operation's value.
Nothing is said of `result` while it is 1: that value is free (U15, log entry 18). -/
def Obligations.AluPortsReportZeroDivisor : Prop :=
  ∀ op (a b : Word),
    ((aluPorts op a b).divByZero = true ↔ (op = .div ∨ op = .rem) ∧ b = 0#32) ∧
    ((aluPorts op a b).divByZero = false → operate op a b = .value (aluPorts op a b).result)

/-! ### Register file and memory -/

/-- 10_state.md R23 (with R22): a write to an index in (0, 32) stores `u32(value)` there and nowhere else; a write to
index 0 or to 32 and above is a no-op; lane 0 reads 0. -/
def Obligations.RegisterFileReadWrite : Prop :=
  ∀ (regs : Vector Word 32) (index : Nat) (value : Int),
    (0 < index → index < 32 → registerRead (registerWrite regs index value) index = some (u32 value)) ∧
    (∀ k, k ≠ index → registerRead (registerWrite regs index value) k = registerRead regs k) ∧
    (index = 0 ∨ 32 ≤ index → registerWrite regs index value = regs) ∧
    (registerRead regs 0 = some 0#32) ∧ (32 ≤ index → registerRead regs index = none)

/-- 20_memory.md R64, R65, R75: word accesses are little-endian, allowed exactly where `addr + 4 <= DMEM_BYTES` on unwrapped
integers, and a word write changes only its four bytes. -/
def Obligations.WordAccessLittleEndian : Prop :=
  ∀ (capacity addr : Nat) (m : Memory) (v : Word), Memory.wf m = true →
    (addr + 4 ≤ capacity →
      (∃ r, readWord capacity m addr = some r ∧
        r.toNat = (Memory.get m addr).toNat + 2 ^ 8 * (Memory.get m (addr + 1)).toNat +
          2 ^ 16 * (Memory.get m (addr + 2)).toNat + 2 ^ 24 * (Memory.get m (addr + 3)).toNat) ∧
      (∃ m', writeWord capacity m addr v = some m' ∧
        (Memory.get m' addr).toNat = v.toNat % 2 ^ 8 ∧
        (Memory.get m' (addr + 1)).toNat = v.toNat / 2 ^ 8 % 2 ^ 8 ∧
        (Memory.get m' (addr + 2)).toNat = v.toNat / 2 ^ 16 % 2 ^ 8 ∧
        (Memory.get m' (addr + 3)).toNat = v.toNat / 2 ^ 24 ∧
        ∀ a, a < addr ∨ addr + 4 ≤ a → Memory.get m' a = Memory.get m a)) ∧
    (capacity < addr + 4 → readWord capacity m addr = none ∧ writeWord capacity m addr v = none)

/-- R77, R83: a word read gives the word last written there, whatever the alignment, and a write to disjoint bytes does not
change it. Rests on the canonical form of memory (log entry 27). -/
def Obligations.WordReadAfterWrite : Prop :=
  ∀ (capacity addr : Nat) (m m' : Memory) (v : Word), Memory.wf m = true → writeWord capacity m addr v = some m' →
    readWord capacity m' addr = some v ∧
    ∀ a, a + 4 ≤ addr ∨ addr + 4 ≤ a → readWord capacity m' a = readWord capacity m a

/-- R66: `load_image` copies every byte or none, and leaves every other byte alone. Rests on `load_image` (decision D16, log
entry 21); the canonical form of memory (log entry 27). -/
def Obligations.LoadImageAllOrNothing : Prop :=
  ∀ (capacity base : Nat) (m : Memory) (bytes : List Byte), Memory.wf m = true →
    (capacity < base + bytes.length → imageInto capacity m bytes base = none) ∧
    (base + bytes.length ≤ capacity → ∃ m', imageInto capacity m bytes base = some m' ∧
      (∀ k, k < bytes.length → Memory.get m' (base + k) = bytes.getD k 0#8) ∧
      (∀ a, a < base ∨ base + bytes.length ≤ a → Memory.get m' a = Memory.get m a))

/-- The canonical form is canonical: two memories in it that read alike at every address are the same list. It is the
model's own form of the byte array of R61 (log entry 27). -/
def Obligations.CanonicalMemoryIsExtensional : Prop :=
  ∀ m m' : Memory, Memory.wf m = true → Memory.wf m' = true → (∀ a, Memory.get m a = Memory.get m' a) → m = m'

/-! ### What each instruction does -/

/-- 41_r_format_arithmetic.md R171 to R178: the eight R-format instructions that cannot fault complete in every stage. Rests
on the field `stage` of `exec` (log entry 1). -/
def Obligations.RFormatComplete : Prop :=
  RFormat .add (fun _ _ => True) (fun a b => BitVec.ofNat 32 (a.toNat + b.toNat)) ∧
  RFormat .sub (fun _ _ => True) (fun a b => BitVec.ofInt 32 (a.toNat - b.toNat)) ∧
  RFormat .and (fun _ _ => True) (fun a b => a &&& b) ∧
  RFormat .or (fun _ _ => True) (fun a b => a ||| b) ∧
  RFormat .xor (fun _ _ => True) (fun a b => a ^^^ b) ∧
  RFormat .sll (fun _ _ => True) (fun a b => BitVec.ofNat 32 (a.toNat * 2 ^ (b.toNat % 32))) ∧
  RFormat .srl (fun _ _ => True) (fun a b => BitVec.ofNat 32 (a.toNat / 2 ^ (b.toNat % 32))) ∧
  RFormat .mul (fun _ _ => True) (fun a b => BitVec.ofNat 32 (a.toNat * b.toNat))

/-- R179, R180: `div` and `rem` complete in every stage, in EX where the divisor value is not 0; unsigned. Rests on the
field `stage` of `exec` (log entry 1). -/
def Obligations.DivRemComplete : Prop :=
  RFormat .div (fun _ b => b.toNat ≠ 0) (fun a b => BitVec.ofNat 32 (a.toNat / b.toNat)) ∧
  RFormat .rem (fun _ b => b.toNat ≠ 0) (fun a b => BitVec.ofNat 32 (a.toNat % b.toNat))

/-- 60_exceptions.md R284: `div` and `rem` raise DivisionByZero in EX exactly when the divisor value carried from ID is 0,
whatever `rd` is, recording the instruction's address. -/
def Obligations.DivRemTrapOnZero : Prop :=
  ∀ rd rs1 rs2 s c, s.stage = .ex → s.idEx.content = some c →
    (c.rs2Val = 0#32 ↔ exec (.div rd rs1 rs2) s = .fault (.divisionByZero s.idEx.pc)) ∧
    (c.rs2Val = 0#32 ↔ exec (.rem rd rs1 rs2) s = .fault (.divisionByZero s.idEx.pc))

/-- 42_immediate_load_store.md R191: `addi` completes in every stage. Rests on ADD for `addi` (decision D24, log entry 15);
the operand value 0 of an absent register (decision D9, log entry 16); the field `stage` of `exec` (log entry 1). -/
def Obligations.AddiComplete : Prop :=
  ∀ rd rs1 imm, IdReads (.addi rd rs1 imm) (some rs1) none ∧
    ExGives (.addi rd rs1 imm) (fun _ _ => True) (fun _ a _ => BitVec.ofInt 32 (a.toNat + imm)) ∧
    MemPasses (.addi rd rs1 imm) ∧ WbWrites (.addi rd rs1 imm) rd

/-- R192: `lw` completes in every stage, in MEM where the address is in bounds, at any alignment; it delivers the word and
changes no byte. Rests on ADD for the address of `lw` (decision D24, log entry 15); the operand value 0 of an absent
register (decision D9, log entry 16); the field `stage` of `exec` (log entry 1). -/
def Obligations.LwComplete : Prop :=
  ∀ rd rs1 imm, IdReads (.lw rd rs1 imm) (some rs1) none ∧
    ExGives (.lw rd rs1 imm) (fun _ _ => True) (fun _ a _ => BitVec.ofInt 32 (a.toNat + imm)) ∧
    (∀ s c v, s.stage = .mem → s.exMem.content = some c → readWord s.dmemBytes s.mem c.aluResult.toNat = some v →
      exec (.lw rd rs1 imm) s = .next { s with memWb := ⟨s.exMem.pc, some ⟨c.instr, v⟩⟩ }) ∧
    WbWrites (.lw rd rs1 imm) rd

/-- R193: `sw` completes in every stage, in MEM where the address is in bounds; it writes the carried `rs2` value and no
register. Rests on ADD for the address of `sw` (decision D24, log entry 15); the field `stage` of `exec` (log entry 1); the
field `touched` (log entry 13). -/
def Obligations.SwComplete : Prop :=
  ∀ rs1 rs2 imm, IdReads (.sw rs1 rs2 imm) (some rs1) (some rs2) ∧
    ExGives (.sw rs1 rs2 imm) (fun _ _ => True) (fun _ a _ => BitVec.ofInt 32 (a.toNat + imm)) ∧
    (∀ s c m, s.stage = .mem → s.exMem.content = some c →
      writeWord s.dmemBytes s.mem c.aluResult.toNat c.rs2Val = some m →
      exec (.sw rs1 rs2 imm) s = .next { s with
        mem := m
        touched := noteStore s.touched c.aluResult.toNat
        memWb := ⟨s.exMem.pc, some ⟨c.instr, c.aluResult⟩⟩ }) ∧
    WbKeeps (.sw rs1 rs2 imm)

/-- R283: `lw` and `sw` raise AddressError in MEM exactly when `addr + 4 > DMEM_BYTES`, recording the access, the address
and the instruction's address. Rests on the field `stage` of `exec` (log entry 1). -/
def Obligations.LoadStoreTrapOutOfBounds : Prop :=
  ∀ s c, s.stage = .mem → s.exMem.content = some c →
    (∀ rd rs1 imm, s.dmemBytes < c.aluResult.toNat + 4 ↔
      exec (.lw rd rs1 imm) s = .fault (.addressError .load c.aluResult s.exMem.pc)) ∧
    (∀ rs1 rs2 imm, s.dmemBytes < c.aluResult.toNat + 4 ↔
      exec (.sw rs1 rs2 imm) s = .fault (.addressError .store c.aluResult s.exMem.pc))

/-- 43_control_transfer.md R201 to R204, R215: the branches complete in every stage. Rests on the flush of a taken transfer
(decision D3, log entry 4); MisalignedTarget (decision D6, log entry 7); the form of a bubble (decision D9, log entry 8);
the result 0 of a branch (decision D10, log entry 16); the field `stage` of `exec` (log entry 1). -/
def Obligations.BranchesComplete : Prop :=
  Branch .beq (fun a b => a = b) ∧ Branch .bne (fun a b => a ≠ b) ∧
  Branch .blt (fun a b => signed a < signed b) ∧ Branch .bge (fun a b => signed a ≥ signed b)

/-- R205, R209, R210, R214: the jumps complete in every stage; `j` drops its link. Rests on the flush of a taken transfer
(decision D3, log entry 4); MisalignedTarget (decision D6, log entry 7); the form of a bubble (decision D9, log entry 8);
the operand value 0 of an absent register (decision D9, log entry 16); the field `stage` of `exec` (log entry 1). -/
def Obligations.JumpsComplete : Prop :=
  (∀ rd imm, Jump (.jal rd imm) rd none (relative imm)) ∧ (∀ imm, Jump (.j imm) 0#5 none (relative imm)) ∧
  (∀ rd rs1 imm, Jump (.jalr rd rs1 imm) rd (some rs1) (indirect imm))

/-- R208: a transfer taken to an address that is no multiple of 4 raises MisalignedTarget, for each of the seven transfers.
Rests on MisalignedTarget (decision D6, log entry 7); the field `stage` of `exec` (log entry 1). -/
def Obligations.TransfersTrapMisaligned : Prop :=
  (∀ rs1 rs2 imm, IdTraps (.beq rs1 rs2 imm) (some rs1) (some rs2) (fun a b => a = b) (relative imm)) ∧
  (∀ rs1 rs2 imm, IdTraps (.bne rs1 rs2 imm) (some rs1) (some rs2) (fun a b => a ≠ b) (relative imm)) ∧
  (∀ rs1 rs2 imm, IdTraps (.blt rs1 rs2 imm) (some rs1) (some rs2) (fun a b => signed a < signed b) (relative imm)) ∧
  (∀ rs1 rs2 imm, IdTraps (.bge rs1 rs2 imm) (some rs1) (some rs2) (fun a b => signed a ≥ signed b) (relative imm)) ∧
  (∀ rd imm, IdTraps (.jal rd imm) none none (fun _ _ => True) (relative imm)) ∧
  (∀ imm, IdTraps (.j imm) none none (fun _ _ => True) (relative imm)) ∧
  (∀ rd rs1 imm, IdTraps (.jalr rd rs1 imm) (some rs1) none (fun _ _ => True) (indirect imm))

/-- R170 to R180, R191, R192, R205, R209, R210: the architectural effect. From a state with a word in ID and operands on
which it does not fault, a register-writing instruction taken through ID, EX, MEM and WB delivers its result to `rd`, and
every other lane keeps its value. Rests on ADD for `addi` and `lw` (decision D24, log entry 15); MisalignedTarget (decision
D6, log entry 7); the field `stage` of `exec` (log entry 1). -/
def Obligations.ArchitecturalResults : Prop :=
  ∀ (i : Instr) (s : State) (rd : RegIdx) (v : Word), s.ifId.content ≠ none → i.rd? = some rd →
    resultOf i s.ifId.pc (sourceValue s i.rs1?) (sourceValue s i.rs2?) s.dmemBytes s.mem = some v →
    (syncTaken i (sourceValue s i.rs1?) (sourceValue s i.rs2?) = true →
      (syncTarget i s.ifId.pc (sourceValue s i.rs1?)).toNat % 4 = 0) →
    Delivers i s rd v

/-- R193: the architectural effect of `sw`: taken through the stages it stores the `rs2` value at the effective address and
changes no register and no other byte. Rests on ADD for the address of `sw` (decision D24, log entry 15); the field `stage`
of `exec` (log entry 1); the canonical form of memory (log entry 27). -/
def Obligations.ArchitecturalStore : Prop :=
  ∀ rs1 rs2 imm (s : State), s.ifId.content ≠ none → Memory.wf s.mem = true →
    (BitVec.ofInt 32 ((readLane s.regs rs1).toNat + imm) : Word).toNat + 4 ≤ s.dmemBytes →
    ∃ t, through (.sw rs1 rs2 imm) s = .next t ∧ t.regs = s.regs ∧
      readWord t.dmemBytes t.mem (BitVec.ofInt 32 ((readLane s.regs rs1).toNat + imm) : Word).toNat =
        some (readLane s.regs rs2) ∧
      ∀ a, a < (BitVec.ofInt 32 ((readLane s.regs rs1).toNat + imm) : Word).toNat ∨
        (BitVec.ofInt 32 ((readLane s.regs rs1).toNat + imm) : Word).toNat + 4 ≤ a →
        Memory.get t.mem a = Memory.get s.mem a

/-! ### Frames -/

/-- R26, R223, R224: in a next state, every instruction in every stage leaves every lane unchanged but its own `rd` in WB;
`sw` and the branches have none, and `j` has lane 0, which reads 0. Rests on the field `stage` of `exec` (log entry 1). -/
def Obligations.RegisterFrame : Prop :=
  ∀ (i : Instr) (s t : State), exec i s = .next t →
    (s.stage ≠ .wb → t.regs = s.regs) ∧
    (∀ k, i.rd? ≠ some k → readLane t.regs k = readLane s.regs k) ∧ readLane t.regs 0#5 = 0#32

/-- R72, R73, R228: every byte of memory is unchanged by every instruction in every stage but for the four bytes `sw` stores
in MEM at the address EX_MEM carries. Rests on the field `stage` of `exec` (log entry 1); the field `touched` (log entry
13). -/
def Obligations.MemoryFrame : Prop :=
  ∀ (i : Instr) (s t : State), exec i s = .next t →
    ((s.stage ≠ .mem ∨ i.mnemonic ≠ .sw ∨ s.exMem.content = none) → t.mem = s.mem ∧ t.touched = s.touched) ∧
    (∀ c, s.exMem.content = some c → ∀ a, a < c.aluResult.toNat ∨ c.aluResult.toNat + 4 ≤ a →
      Memory.get t.mem a = Memory.get s.mem a)

/-- R28, R32, R40, R41, R42: in every stage an instruction replaces only that stage's output register (in ID also `pc` and
IF_ID), and never the instruction store, the capacity, the latch or the counter. Rests on the fault latch (decision D5, log
entry 6); the instruction store (decision D12, log entry 11); the counter (decision D14, log entry 12); the field
`dmemBytes` (log entry 10); the field `stage` of `exec` (log entry 1). -/
def Obligations.PipelineFrame : Prop :=
  ∀ (i : Instr) (s t : State), exec i s = .next t →
    (s.stage ≠ .id → t.pc = s.pc ∧ t.ifId = s.ifId ∧ t.idEx = s.idEx) ∧
    (s.stage ≠ .ex → t.exMem = s.exMem) ∧ (s.stage ≠ .mem → t.memWb = s.memWb) ∧
    t.imem = s.imem ∧ t.dmemBytes = s.dmemBytes ∧ t.fault = s.fault ∧ t.cycle = s.cycle ∧ t.stage = s.stage

/-! ### One step -/

/-- 45_pipeline_engine.md R220, R247: a step runs the decoded instruction. With the latch clear, each stage runs `exec` of
the instruction its stage register holds; once the older instructions have done their stages without a fault, the step is
`exec` of the instruction the word in IF_ID decodes to, in ID, and the commit of the cycle. Rests on the fault latch
(decision D5, log entry 6); which of several faults is reported (decision D5, log entry 26); the counter (decision D14, log
entry 12); the field `stage` and the order of the stages (log entry 1). -/
def Obligations.StepRunsDecodedInstruction : Prop :=
  (∀ s i c, s.memWb.content = some c → Holds c.instr i → wbStage s = exec i (atStage .wb s)) ∧
  (∀ s i c, s.exMem.content = some c → Holds c.instr i → memStage s = exec i (atStage .mem s)) ∧
  (∀ s i c, s.idEx.content = some c → Holds c.instr i → exStage s = exec i (atStage .ex s)) ∧
  (∀ s s3 w i, s.fault = none → s.ifId.content = some w → Is w i → olderStages s = .next s3 →
    step s = andThen (exec i (atStage .id s3)) commit) ∧
  (∀ s f, s.fault = none → olderStages s = .fault f → step s = .fault f) ∧
  (∀ s s1 s2, wbStage s = .next s1 → memStage s1 = .next s2 → olderStages s = exStage s2)

/-- R247: a step is the synchronous cycle, every new value a function of the values at the start of the cycle. Rests on the
flush of a taken transfer (decision D3, log entry 4); the fault latch (decision D5, log entry 6); which of several faults is
reported (decision D5, log entry 26); MisalignedTarget (decision D6, log entry 7); an Unknown in the pipeline (decision D8,
log entry 9); the form of a bubble (decision D9, log entry 8); the operand value 0 of an absent register (decision D9, log
entry 16); the result 0 of a branch and an Unknown (decision D10, log entry 16); the instruction store (decision D12, log
entry 11); the counter (decision D14, log entry 12); the memory listing (decision D14, log entry 13); ADD for `addi`, `lw`
and `sw` (decision D24, log entry 15); the field `stage` and the order of the stages (log entry 1); the field `dmemBytes`
(log entry 10); the canonical form of memory (log entry 27). -/
def Obligations.StepIsSynchronousCycle : Prop :=
  ∀ s : State, s.fault = none → step s = syncCycle s

/-- R243, R244: where no transfer is taken, IF fetches the word at `pc` and `pc` advances by 4; at or past the end of the
program IF_ID becomes a no-op carrying `pc`, and `pc` stays. -/
def Obligations.SequentialFetch : Prop :=
  ∀ s t, step s = .next t → (¬ ∃ target, Taken s target) →
    (s.pc.toNat < 4 * s.imem.length → ∃ w, s.imem[s.pc.toNat / 4]? = some w ∧
      t.ifId = ⟨s.pc, some w⟩ ∧ t.pc = s.pc + 4#32) ∧
    (4 * s.imem.length ≤ s.pc.toNat → t.ifId = ⟨s.pc, none⟩ ∧ t.pc = s.pc)

/-- R245, R212: where a transfer is taken the fetch of this cycle is discarded and `pc` is the target, which is a multiple
of 4 since another target faults (R208, R241); the transfer itself goes on to EX as a real instruction (R242), with its
operand values. Rests on the flush of a taken transfer (decision D3, log entry 4); MisalignedTarget (decision D6, log entry
7); the form of a bubble (decision D9, log entry 8); the operand value 0 of an absent register (decision D9, log entry 16).
-/
def Obligations.TakenTransferFlushes : Prop :=
  ∀ s t target, step s = .next t → Taken s target →
    target.toNat % 4 = 0 ∧ t.pc = target ∧ t.ifId = ⟨target, none⟩ ∧
    ∃ w i, s.ifId.content = some w ∧ Is w i ∧
      t.idEx = ⟨s.ifId.pc, some ⟨decode w, syncOperand s i.rs1?, syncOperand s i.rs2?⟩⟩

/-- R223, R224, R26: WB cannot fault; the register file after a step: a lane other than 0 takes the result in MEM_WB where
MEM_WB holds a known instruction of format R, I or J with that `rd`; every other lane keeps its value. -/
def Obligations.RegistersWrittenInWbOnly : Prop :=
  (∀ s f, wbStage s ≠ .fault f) ∧
  ∀ s t, step s = .next t → ∀ k,
    (∀ c i, s.memWb.content = some c → Holds c.instr i → i.format ∈ [.r, .i, .j] → i.rd? = some k → k ≠ 0#5 →
      readLane t.regs k = c.result) ∧
    ((¬ ∃ c i, s.memWb.content = some c ∧ Holds c.instr i ∧ i.format ∈ [.r, .i, .j] ∧ i.rd? = some k) →
      readLane t.regs k = readLane s.regs k) ∧
    readLane t.regs 0#5 = 0#32

/-- R238, R239: the operand values ID hands to EX are those of the register file after the WB write of the same cycle, and
nothing else (0 for an absent operand). Rests on the operand value 0 of an absent register (decision D9, log entry 16). -/
def Obligations.IdReadsAfterWb : Prop :=
  ∀ s t w i, step s = .next t → s.ifId.content = some w → Is w i →
    t.idEx = ⟨s.ifId.pc, some ⟨decode w,
      (match i.rs1? with | some r => readLane t.regs r | none => 0#32),
      (match i.rs2? with | some r => readLane t.regs r | none => 0#32)⟩⟩

/-- R227 to R229, R73: the data memory after a step: a `sw` in EX_MEM has written its word, in bounds; in every other case
memory is unchanged. -/
def Obligations.MemoryWrittenBySwOnly : Prop :=
  ∀ s t, step s = .next t →
    (∀ c rs1 rs2 imm, s.exMem.content = some c → Holds c.instr (.sw rs1 rs2 imm) →
      writeWord s.dmemBytes s.mem c.aluResult.toNat c.rs2Val = some t.mem) ∧
    ((¬ ∃ c rs1 rs2 imm, s.exMem.content = some c ∧ Holds c.instr (.sw rs1 rs2 imm)) → t.mem = s.mem)

/-- 10_state.md R39, with 45_pipeline_engine.md R226, R230, R237: bubbles have no effect and pass on as bubbles. Rests on
the form of a bubble (decision D9, log entry 8). -/
def Obligations.BubblesAreInert : Prop :=
  ∀ s t, step s = .next t →
    (s.memWb.content = none → t.regs = s.regs) ∧
    (s.exMem.content = none → t.mem = s.mem ∧ t.memWb = ⟨s.exMem.pc, none⟩) ∧
    (s.idEx.content = none → t.exMem = ⟨s.idEx.pc, none⟩) ∧
    (s.ifId.content = none → t.idEx = ⟨s.ifId.pc, none⟩ ∧ ¬ ∃ target, Taken s target)

/-- R236, 30_encoding.md R113: an Unknown occupies its slot in every stage and does nothing: operand values and result 0, no
memory access, no register write, no transfer. Rests on an Unknown in the pipeline (decision D8, log entry 9); the operand
value 0 of an absent register (decision D9, log entry 16); the result 0 of an Unknown (decision D10, log entry 16). -/
def Obligations.UnknownIsInert : Prop :=
  ∀ s t, step s = .next t →
    (∀ w, s.ifId.content = some w → IsUnknown (decode w) →
      t.idEx = ⟨s.ifId.pc, some ⟨decode w, 0#32, 0#32⟩⟩ ∧ ¬ ∃ target, Taken s target) ∧
    (∀ c, s.idEx.content = some c → IsUnknown c.instr →
      t.exMem = ⟨s.idEx.pc, some ⟨c.instr, 0#32, c.rs2Val⟩⟩) ∧
    (∀ c, s.exMem.content = some c → IsUnknown c.instr →
      t.memWb = ⟨s.exMem.pc, some ⟨c.instr, c.aluResult⟩⟩ ∧ t.mem = s.mem) ∧
    (∀ c, s.memWb.content = some c → IsUnknown c.instr → t.regs = s.regs)

/-- R41, R42, R80, R222: a step that does not fault adds one to the counter, leaves the latch clear, and never changes the
instruction store or the capacity. Rests on the fault latch (decision D5, log entry 6); the instruction store (decision D12,
log entry 11); the counter (decision D14, log entry 12); the field `dmemBytes` (log entry 10). -/
def Obligations.StepKeepsProgramAndCounts : Prop :=
  ∀ s t, step s = .next t →
    t.cycle = s.cycle + 1 ∧ s.fault = none ∧ t.fault = none ∧ t.imem = s.imem ∧ t.dmemBytes = s.dmemBytes

/-- 60_exceptions.md R281, R288: with the latch clear, a step faults only for one of the three causes, and the oldest
instruction's fault is the one reported: AddressError from EX_MEM; else DivisionByZero from ID_EX; else MisalignedTarget
from a transfer taken in ID. Rests on the fault latch (decision D5, log entry 6); which of several faults is reported
(decision D5, log entry 26); MisalignedTarget (decision D6, log entry 7). -/
def Obligations.FaultCausesAndPriority : Prop :=
  ∀ s f, s.fault = none →
    (step s = .fault f ↔
      (∃ c i, s.exMem.content = some c ∧ Holds c.instr i ∧ s.dmemBytes < c.aluResult.toNat + 4 ∧
        ((i.mnemonic = .lw ∧ f = .addressError .load c.aluResult s.exMem.pc) ∨
         (i.mnemonic = .sw ∧ f = .addressError .store c.aluResult s.exMem.pc))) ∨
      ((¬ ∃ c i, s.exMem.content = some c ∧ Holds c.instr i ∧ s.dmemBytes < c.aluResult.toNat + 4 ∧
          i.mnemonic ∈ [.lw, .sw]) ∧
        ((∃ c i, s.idEx.content = some c ∧ Holds c.instr i ∧ i.mnemonic ∈ [.div, .rem] ∧ c.rs2Val = 0#32 ∧
            f = .divisionByZero s.idEx.pc) ∨
         ((¬ ∃ c i, s.idEx.content = some c ∧ Holds c.instr i ∧ i.mnemonic ∈ [.div, .rem] ∧ c.rs2Val = 0#32) ∧
          ∃ target, Taken s target ∧ target.toNat % 4 ≠ 0 ∧ f = .misalignedTarget target s.ifId.pc))))

/-- No step is refused: every word that can stand in the program has a meaning (R109, R113). Rests on an Unknown in the
pipeline (decision D8, log entry 9). -/
def Obligations.NoStepIsRefused : Prop :=
  ∀ s r, step s ≠ .refused r

/-- R263, R282: a faulting cycle leaves the state as it was but for the latch; with the latch set `step()` reports the same
fault and changes nothing; the host's `step()` reports the snapshot of the next state or the fault. Rests on the fault latch
(decision D5, log entry 6); the memory listing (decision D14, log entry 13). -/
def Obligations.FaultLatchIsTerminal : Prop :=
  (∀ s f, step s = .fault f → clock s = { s with fault := some f } ∧ step (clock s) = .fault f ∧
    clock (clock s) = clock s) ∧
  (∀ s f b, step s = .fault f → hostStep b s = (clock s, .fault f)) ∧
  (∀ s t b, step s = .next t → clock s = t ∧ hostStep b s = (t, .snapshot (snapshot b t)))

/-! ### Reset, load, the end of a run -/

/-- 10_state.md R48, 70_reset_and_hazards.md R311: the reset state. The lanes of D7 are all but 0 and 2. Rests on the fault
latch (decision D5, log entry 6); the reset values of the lanes (decision D7, log entry 5); the form of a bubble (decision
D9, log entry 8); the empty program before any load (decision D12, log entry 11); the counter (decision D14, log entry 12);
the field `dmemBytes` (log entry 10). -/
def Obligations.ResetState : Prop :=
  State.reset.pc = 0#32 ∧ State.reset.ifId = ⟨0#32, none⟩ ∧ State.reset.idEx = ⟨0#32, none⟩ ∧
  State.reset.exMem = ⟨0#32, none⟩ ∧ State.reset.memWb = ⟨0#32, none⟩ ∧
  (∀ k, readLane State.reset.regs k = 0#32) ∧ (∀ a, Memory.get State.reset.mem a = 0#8) ∧
  State.reset.imem = [] ∧ State.reset.fault = none ∧ State.reset.cycle = 0 ∧ State.reset.dmemBytes = 4096

/-- 48_host_interface.md R262, U12, R310: `load` puts every element at its reset value and installs the program, refusing
`2^30` words or more; the hardware reset keeps the program. Rests on the reset that `load` makes (decision D22, log entry
20); that the hardware reset keeps the program (log entry 20); the fault latch (decision D5, log entry 6); the reset values
of the lanes (decision D7, log entry 5); the form of a bubble (decision D9, log entry 8); the bound on the program (decision
D12, log entry 11); the counter (decision D14, log entry 12); the field `stage` and the order of the stages (log entry 1);
the field `touched` (log entry 13); the field `dmemBytes` (log entry 10). -/
def Obligations.LoadResets : Prop :=
  ∀ (s : State) (words : List Word),
    (words.length < 2 ^ 30 →
      load s words = .ok { State.reset with imem := words, dmemBytes := s.dmemBytes }) ∧
    (2 ^ 30 ≤ words.length → load s words = .error .programTooLong) ∧
    hardReset s = { State.reset with imem := s.imem, dmemBytes := s.dmemBytes }

/-- The invariant holds at reset, and after every load into a machine whose capacity is in range (R48, R262, R8). Rests on
the reset that `load` makes (decision D22, log entry 20); the bound on the program (decision D12, log entry 11); the field
`stage` and the order of the stages (log entry 1); the field `touched` (log entry 13); the field `dmemBytes` (log entry 10);
the canonical form of memory (log entry 27). -/
def Obligations.ResetAndLoadInvariant : Prop :=
  Machine.Inv State.reset ∧
  (∀ (s t : State) (words : List Word), 1 ≤ s.dmemBytes → s.dmemBytes ≤ 2 ^ 32 → load s words = .ok t → Machine.Inv t)

/-- R29, R24, R31, R61, R238, R243: every step from every state that meets the invariant keeps it: `pc` a multiple of 4,
memory canonical and within the capacity, lane 0 zero, and every in-flight record the decoding of the program word at the
address it carries. Rests on MisalignedTarget (decision D6, log entry 7); the bound on the program (decision D12, log entry
11); the field `stage` and the order of the stages (log entry 1); the field `touched` (log entry 13); the field `dmemBytes`
(log entry 10); the canonical form of memory (log entry 27). -/
def Obligations.StepKeepsInvariant : Prop :=
  ∀ s t, Machine.Inv s → step s = .next t → Machine.Inv t

/-- R31: in a state that meets the invariant, the fetch increment never wraps, in a step that takes no transfer, and the
link value of whatever instruction is in ID_EX never wraps, whatever the step does. Rests on the bound on the program
(decision D12, log entry 11). -/
def Obligations.PcNeverWraps : Prop :=
  ∀ s, Machine.Inv s →
    (∀ t, step s = .next t → (¬ ∃ target, Taken s target) →
      s.pc.toNat ≤ t.pc.toNat ∧ t.pc.toNat ≤ s.pc.toNat + 4) ∧
    (∀ c, s.idEx.content = some c → (linkValue s.idEx.pc).toNat = s.idEx.pc.toNat + 4)

/-- R265: once drained after a step, `pc` is past the program, and every further step gives a drained state with the same
`pc`, registers and memory, and a counter one higher (R41). Rests on the counter (decision D14, log entry 12). -/
def Obligations.DrainedStaysDrained : Prop :=
  ∀ s t, step s = .next t → drained t = true →
    4 * t.imem.length ≤ t.pc.toNat ∧
    ∃ u, step t = .next u ∧ drained u = true ∧ u.pc = t.pc ∧ u.regs = t.regs ∧ u.mem = t.mem ∧ u.cycle = t.cycle + 1

/-- R266 to R268: the run loop steps at least once, and ends with a drained state, with the state before a faulting cycle
and its latch set, or at the cap with instructions still in flight. Rests on the shape of the run loop (decision D13, log
entry 14); the fault latch (decision D5, log entry 6); the counter (decision D14, log entry 12). -/
def Obligations.RunEndsAsStated : Prop :=
  ∀ (s : State) (maxCycles : Nat),
    (∃ k t, core.run (k + 1) s = .next t ∧ drained t = true ∧ run s maxCycles = .finished t) ∨
    (∃ k t f, core.run k s = .next t ∧ step t = .fault f ∧ run s maxCycles = .faulted f (latchFault t f)) ∨
    (∃ k t, core.run (k + 1) s = .next t ∧ drained t = false ∧ maxCycles ≤ t.cycle ∧
      run s maxCycles = .cycleLimit t)

/-! ### Across cycles -/

/-- 45_pipeline_engine.md R248, 70_reset_and_hazards.md R318: the life of an instruction. A register-writing instruction in
ID in one cycle takes its operands from the register file as that cycle leaves it, and its result is in `rd` at the end of
the third cycle after it, whatever the instructions around it do; lane 0 reads 0 instead. Rests on ADD for `addi` and `lw`
(decision D24, log entry 15). -/
def Obligations.ResultReachesRegisterInWb : Prop :=
  ∀ (s0 s1 s2 s3 s4 : State) (w : Word) (i : Instr) (rd : RegIdx) (v : Word),
    step s0 = .next s1 → step s1 = .next s2 → step s2 = .next s3 → step s3 = .next s4 →
    s0.ifId.content = some w → Is w i → i.rd? = some rd →
    resultOf i s0.ifId.pc (sourceValue s1 i.rs1?) (sourceValue s1 i.rs2?) s2.dmemBytes s2.mem = some v →
    readLane s4.regs rd = if rd = 0#5 then 0#32 else v

/-- R317, R239: no forwarding and no interlock. Two machines that agree on the register file, `pc`, IF_ID, MEM_WB and the
program, whatever they hold in ID_EX, EX_MEM and memory, read the same operands in ID, take the same transfer and fetch the
same word. -/
def Obligations.NoForwarding : Prop :=
  ∀ s s' t t' : State, s.regs = s'.regs → s.pc = s'.pc → s.ifId = s'.ifId → s.memWb = s'.memWb → s.imem = s'.imem →
    step s = .next t → step s' = .next t' →
    t.regs = t'.regs ∧ t.idEx = t'.idEx ∧ t.ifId = t'.ifId ∧ t.pc = t'.pc

/-- 20_memory.md R77: a `lw` directly behind a `sw` to the same address, the sum its premise writes, delivers the stored
word. Rests on ADD for the address of `lw` (decision D24, log entry 15); the canonical form of memory (log entry 27). -/
def Obligations.LoadSeesPrecedingStore : Prop :=
  ∀ (s t u : State) (c : ExMemData) (d : IdExData) (rs1 rs2 rd base : RegIdx) (imm imm' : Int),
    Memory.wf s.mem = true → step s = .next t → step t = .next u →
    s.exMem.content = some c → Holds c.instr (.sw rs1 rs2 imm) →
    s.idEx.content = some d → Holds d.instr (.lw rd base imm') →
    d.rs1Val + u32 imm' = c.aluResult →
    u.memWb = ⟨s.idEx.pc, some ⟨d.instr, c.rs2Val⟩⟩

/-- R249, R327: a program of `N >= 1` words with no control transfer among them, run from its load without a fault, is
drained at the end of cycle `N + 4` and at no earlier cycle. An Unknown word counts like any other. Rests on the reset that
`load` makes (decision D22, log entry 20); an Unknown in the pipeline (decision D8, log entry 9); the counter (decision D14,
log entry 12). -/
def Obligations.StraightLineDrainsInNPlusFour : Prop :=
  ∀ (s0 t : State) (words : List Word), words ≠ [] → (∀ w ∈ words, isTransfer (decode w) = false) →
    load s0 words = .ok t →
    (∀ u, core.run (words.length + 4) t = .next u → drained u = true ∧ u.cycle = words.length + 4) ∧
    (∀ k u, 1 ≤ k → k < words.length + 4 → core.run k t = .next u → drained u = false)
end

