-- ==== Sys2Proof/Laws/Codec.lean ====
section
/-! SUPPORT. The bit-layout table: its columns tile the word, fields stand alike in every format that has them, and a field
placed by a layout is read back by it. -/

namespace Sys2Proof

/-! ### The table -/

/-- The columns follow one another from bit `k` to bit `n - 1`, so every bit between is in exactly one. -/
def tiles : List Segment → Nat → Nat → Bool
  | [], k, n => k == n
  | g :: segs, k, n => g.pos == k && tiles segs (k + g.width) n

/-- Every layout covers the 32 bits of a word, each once. -/
theorem layout_tiles (f : Format) : tiles (layout f) 0 32 = true := by cases f <;> rfl

@[simp] theorem fieldWidth_imm_r : fieldWidth (layout .r) .imm = 0 := rfl

@[simp] theorem fieldWidth_imm_i : fieldWidth (layout .i) .imm = 12 := rfl

@[simp] theorem fieldWidth_imm_s : fieldWidth (layout .s) .imm = 12 := rfl

@[simp] theorem fieldWidth_imm_b : fieldWidth (layout .b) .imm = 13 := rfl

@[simp] theorem fieldWidth_imm_j : fieldWidth (layout .j) .imm = 21 := rfl

/-- Every format reads `opcode` from the same bits (R91). -/
theorem opcodeOf_eq (f : Format) (w : Word) : opcodeOf w = BitVec.ofNat 7 (fieldAt (layout f) .opcode w) := by
  cases f <;> rfl

/-- R, I and J read `rd` from the same bits (R91). -/
theorem rdOf_eq {f : Format} (h : (f == .r || f == .i || f == .j) = true) (w : Word) : rdOf w = regOf f .rd w := by
  cases f <;> first | rfl | exact absurd h (by decide)

/-- R, I, S and B read `funct3` from the same bits (R91). -/
theorem funct3Of_eq {f : Format} (h : (f != .j) = true) (w : Word) :
    funct3Of w = BitVec.ofNat 3 (fieldAt (layout f) .funct3 w) := by
  cases f <;> first | rfl | exact absurd h (by decide) | simp [funct3Of, fieldAt, layout]

/-! ### The spelling `jal x0` of `j` -/

/-- A well-formed instruction is its own decoded spelling (R108, R115). -/
@[simp] theorem asDecoded_of_wellFormed {i : Instr} (h : i.WellFormed) : i.asDecoded = i := by
  cases i <;> simp_all [Instr.asDecoded, Instr.WellFormed, Instr.wellFormed, Instr.linkNamed]

/-- Both spellings of an instruction have the same word (R115). -/
theorem encode_asDecoded (i : Instr) : encode i.asDecoded = encode i := by
  cases i with
  | jal rd imm =>
    by_cases h : rd = 0#5
    · subst h; rfl
    · simp [Instr.asDecoded, h]
  | _ => rfl

/-! ### Reading what was placed -/

/-- The bits of a value that a layout carries for a field. -/
def carried (segs : List Segment) (n : FieldName) (x : Nat) : Nat :=
  (segs.map fun g => if g.field = n then x / 2 ^ g.lo % 2 ^ g.width * 2 ^ g.lo else 0).sum

theorem place_cons (g : Segment) (segs : List Segment) (v : FieldName → Nat) :
    place (g :: segs) v = v g.field / 2 ^ g.lo % 2 ^ g.width * 2 ^ g.pos + place segs v := rfl

/-- What columns from bit `k` on place is a multiple of `2^k`. -/
theorem place_dvd {segs : List Segment} {k n : Nat} (h : tiles segs k n = true) (v : FieldName → Nat) :
    2 ^ k ∣ place segs v := by
  induction segs generalizing k with
  | nil => exact Nat.dvd_zero _
  | cons g segs ih =>
    simp only [tiles, Bool.and_eq_true, beq_iff_eq] at h
    rw [place_cons, h.1]
    exact Nat.dvd_add (Nat.dvd_mul_left _ _) ((Nat.pow_dvd_pow 2 (Nat.le_add_right k g.width)).trans (ih h.2))

/-- What columns up to bit `n - 1` place fits in `n` bits. -/
theorem place_lt {segs : List Segment} {k n : Nat} (h : tiles segs k n = true) (v : FieldName → Nat) :
    place segs v + 2 ^ k ≤ 2 ^ n := by
  induction segs generalizing k with
  | nil => simp_all [tiles, place]
  | cons g segs ih =>
    simp only [tiles, Bool.and_eq_true, beq_iff_eq] at h
    have hd : v g.field / 2 ^ g.lo % 2 ^ g.width + 1 ≤ 2 ^ g.width := Nat.mod_lt _ (Nat.two_pow_pos _)
    have hk := Nat.mul_le_mul_right (2 ^ k) hd
    have ht := ih h.2
    rw [place_cons, h.1]
    rw [Nat.pow_add, Nat.mul_comm (2 ^ k)] at ht
    rw [Nat.add_mul, Nat.one_mul] at hk
    omega

/-- The columns after bit `k` stand at bit `k` or above. -/
theorem pos_ge {segs : List Segment} {k n : Nat} (h : tiles segs k n = true) {g : Segment} (hg : g ∈ segs) : k ≤ g.pos := by
  induction segs generalizing k with
  | nil => cases hg
  | cons g' segs ih =>
    simp only [tiles, Bool.and_eq_true, beq_iff_eq] at h
    rcases List.mem_cons.1 hg with rfl | hg
    · exact h.1.ge
    · exact (Nat.le_add_right _ _).trans (ih h.2 hg)

/-- Each column of a placed word holds the bits that were placed there. -/
theorem place_column {segs : List Segment} {k n : Nat} (h : tiles segs k n = true) (v : FieldName → Nat) {g : Segment}
    (hg : g ∈ segs) : place segs v / 2 ^ g.pos % 2 ^ g.width = v g.field / 2 ^ g.lo % 2 ^ g.width := by
  induction segs generalizing k with
  | nil => cases hg
  | cons g' segs ih =>
    simp only [tiles, Bool.and_eq_true, beq_iff_eq] at h
    obtain ⟨hp, ht⟩ := h
    obtain ⟨r, hr⟩ := place_dvd ht v
    have hd : v g'.field / 2 ^ g'.lo % 2 ^ g'.width < 2 ^ g'.width := Nat.mod_lt _ (Nat.two_pow_pos _)
    rcases List.mem_cons.1 hg with rfl | hg
    · rw [place_cons, hr, hp, Nat.pow_add, Nat.mul_assoc, Nat.mul_comm _ (2 ^ k), ← Nat.mul_add,
        Nat.mul_div_cancel_left _ (Nat.two_pow_pos k), Nat.add_mul_mod_self_left, Nat.mod_mod]
    · rw [← ih ht hg]
      obtain ⟨d, hd'⟩ := Nat.exists_eq_add_of_le (pos_ge ht hg)
      have hlow : v g'.field / 2 ^ g'.lo % 2 ^ g'.width * 2 ^ k < 2 ^ (k + g'.width) := by
        rw [Nat.pow_add, Nat.mul_comm]
        exact Nat.mul_lt_mul_of_pos_left hd (Nat.two_pow_pos k)
      rw [place_cons, hp, hd', Nat.pow_add 2 (k + g'.width) d, ← Nat.div_div_eq_div_mul, ← Nat.div_div_eq_div_mul, hr,
        Nat.add_mul_div_left _ _ (Nat.two_pow_pos _), Nat.div_eq_of_lt hlow, Nat.zero_add,
        Nat.mul_div_cancel_left _ (Nat.two_pow_pos _)]

/-- A field placed by a layout is read back by it, with the bits its columns carry. -/
theorem fieldAt_place (f : Format) (n : FieldName) (v : FieldName → Nat) :
    fieldAt (layout f) n (BitVec.ofNat 32 (place (layout f) v)) = carried (layout f) n (v n) := by
  have hlt : place (layout f) v < 2 ^ 32 := by
    have := place_lt (layout_tiles f) v
    omega
  unfold fieldAt carried
  rw [BitVec.toNat_ofNat, Nat.mod_eq_of_lt hlt]
  refine congrArg List.sum (List.map_congr_left fun g hg => ?_)
  split
  · rename_i hn
    rw [place_column (layout_tiles f) v hg, hn]
  · rfl

theorem opcodeOf_wordOf (i : Instr) : opcodeOf (wordOf i) = (keyOf i.mnemonic).opcode := by
  rw [opcodeOf_eq i.format, wordOf, fieldAt_place]
  apply BitVec.eq_of_toNat_eq
  cases i.format <;> simp [carried, layout, fieldsOf] <;> exact BitVec.isLt _

theorem rdOf_wordOf {i : Instr} (h : (i.format == .r || i.format == .i || i.format == .j) = true) : rdOf (wordOf i) = i.rd?.getD 0 := by
  rw [rdOf_eq h, regOf, wordOf, fieldAt_place]
  apply BitVec.eq_of_toNat_eq
  revert h
  cases i.format <;> simp [carried, layout, fieldsOf] <;> exact BitVec.isLt _

theorem funct3Of_wordOf {i : Instr} (h : (i.format != .j) = true) :
    funct3Of (wordOf i) = (keyOf i.mnemonic).funct3.getD 0 := by
  rw [funct3Of_eq h, wordOf, fieldAt_place]
  apply BitVec.eq_of_toNat_eq
  revert h
  cases i.format <;> simp [carried, layout, fieldsOf] <;> exact BitVec.isLt _

theorem funct7Of_wordOf {i : Instr} (h : i.format = .r) : funct7Of (wordOf i) = (keyOf i.mnemonic).funct7.getD 0 := by
  rw [funct7Of, wordOf, h, fieldAt_place]
  apply BitVec.eq_of_toNat_eq
  simpa [carried, layout, fieldsOf] using BitVec.isLt _

end Sys2Proof
end

