-- ==== Sys2Proof/Laws/Memory.lean ====
section
/-! SUPPORT. The data memory: a byte read after a byte write, and that every memory operation keeps the canonical form and
the capacity. -/

namespace Sys2Proof.Machine

/-! ### The canonical form -/

theorem wfFrom_mono {lo lo' : Nat} {m : Memory} (h : lo' ≤ lo) (hm : Memory.wfFrom lo m = true) :
    Memory.wfFrom lo' m = true := by
  cases m with
  | nil => rfl
  | cons c m =>
    simp only [Memory.wfFrom, Bool.and_eq_true, decide_eq_true_eq] at hm ⊢
    exact ⟨⟨h.trans hm.1.1, hm.1.2⟩, hm.2⟩

/-- Below its first address a canonical memory reads 0. -/
theorem get_below {lo a : Nat} {m : Memory} (hm : Memory.wfFrom lo m = true) (h : a < lo) : Memory.get m a = 0#8 := by
  induction m generalizing lo with
  | nil => rfl
  | cons c m ih =>
    simp only [Memory.wfFrom, Bool.and_eq_true, decide_eq_true_eq] at hm
    have hne : a ≠ c.1 := by omega
    simp only [Memory.get, if_neg hne]
    exact ih hm.2 (by omega)

/-- Writing a byte keeps the canonical form. -/
theorem wfFrom_set {lo : Nat} {m : Memory} (hm : Memory.wfFrom lo m = true) {a : Nat} (ha : lo ≤ a) (b : Byte) :
    Memory.wfFrom lo (Memory.set m a b) = true := by
  induction m generalizing lo with
  | nil => by_cases hb : b = 0#8 <;> simp [Memory.set, Memory.wfFrom, hb, ha]
  | cons c m ih =>
    have hc := hm
    simp only [Memory.wfFrom, Bool.and_eq_true, decide_eq_true_eq] at hc
    simp only [Memory.set]
    split
    · by_cases hb : b = 0#8
      · simpa [hb] using hm
      · rename_i hlt
        simp only [hb, if_false, Memory.wfFrom, Bool.and_eq_true, decide_eq_true_eq]
        exact ⟨⟨ha, by simpa using hb⟩, ⟨by omega, hc.1.2⟩, hc.2⟩
    · split
      · rename_i heq
        by_cases hb : b = 0#8
        · simpa [hb] using wfFrom_mono (by omega) hc.2
        · simp only [hb, if_false, Memory.wfFrom, Bool.and_eq_true, decide_eq_true_eq]
          exact ⟨⟨ha, by simpa using hb⟩, heq ▸ hc.2⟩
      · simp only [Memory.wfFrom, Bool.and_eq_true, decide_eq_true_eq]
        exact ⟨hc.1, ih hc.2 (by omega)⟩

theorem wf_set {m : Memory} (hm : Memory.wf m = true) (a : Nat) (b : Byte) : Memory.wf (Memory.set m a b) = true :=
  wfFrom_set hm (Nat.zero_le a) b

theorem wf_setWord {m : Memory} (hm : Memory.wf m = true) (a : Nat) (v : Word) : Memory.wf (setWord m a v) = true :=
  wf_set (wf_set (wf_set (wf_set hm _ _) _ _) _ _) _ _

theorem wf_setBytes {m : Memory} (hm : Memory.wf m = true) (base : Nat) (bytes : List Byte) :
    Memory.wf (setBytes m base bytes) = true := by
  induction bytes generalizing m base with
  | nil => exact hm
  | cons b bytes ih => exact ih (wf_set hm base b) (base + 1)

theorem wf_writeByte {capacity : Nat} {m m' : Memory} {a v : Nat} (h : writeByte capacity m a v = some m')
    (hm : Memory.wf m = true) : Memory.wf m' = true := by
  unfold writeByte at h
  split at h
  · cases h; exact wf_set hm _ _
  · cases h

theorem wf_writeWord {capacity : Nat} {m m' : Memory} {a : Nat} {v : Word} (h : writeWord capacity m a v = some m')
    (hm : Memory.wf m = true) : Memory.wf m' = true := by
  unfold writeWord at h
  split at h
  · cases h; exact wf_setWord hm _ _
  · cases h

theorem wf_imageInto {capacity : Nat} {m m' : Memory} {bytes : List Byte} {base : Nat}
    (h : imageInto capacity m bytes base = some m') (hm : Memory.wf m = true) : Memory.wf m' = true := by
  unfold imageInto at h
  split at h
  · cases h; exact wf_setBytes hm _ _
  · cases h

theorem reset_mem_wf : Memory.wf State.reset.mem = true := rfl

/-! ### The capacity -/

theorem within_set {capacity : Nat} {m : Memory} (hm : Memory.within capacity m = true) {a : Nat} (ha : a < capacity)
    (b : Byte) : Memory.within capacity (Memory.set m a b) = true := by
  induction m with
  | nil => by_cases hb : b = 0#8 <;> simp [Memory.set, Memory.within, hb, ha]
  | cons c m ih =>
    have hc := hm
    simp only [Memory.within, List.all_cons, Bool.and_eq_true, decide_eq_true_eq] at hc ih
    simp only [Memory.set]
    split_ifs <;>
      simp only [Memory.within, List.all_cons, Bool.and_eq_true, decide_eq_true_eq] <;>
      first
        | exact hc
        | exact hc.2
        | exact ⟨ha, hc⟩
        | exact ⟨ha, hc.2⟩
        | exact ⟨hc.1, ih hc.2⟩

theorem within_setWord {capacity : Nat} {m : Memory} (hm : Memory.within capacity m = true) {a : Nat}
    (ha : a + 4 ≤ capacity) (v : Word) : Memory.within capacity (setWord m a v) = true :=
  within_set (within_set (within_set (within_set hm (by omega) _) (by omega) _) (by omega) _) (by omega) _

theorem within_writeWord {capacity : Nat} {m m' : Memory} {a : Nat} {v : Word}
    (h : writeWord capacity m a v = some m') (hm : Memory.within capacity m = true) :
    Memory.within capacity m' = true := by
  unfold writeWord at h
  split at h
  · cases h; exact within_setWord hm ‹_› _
  · cases h

/-! ### A byte read after a byte write -/

theorem get_set_from {lo : Nat} {m : Memory} (hm : Memory.wfFrom lo m = true) (a c : Nat) (b : Byte) :
    Memory.get (Memory.set m a b) c = if c = a then b else Memory.get m c := by
  induction m generalizing lo with
  | nil =>
    by_cases hb : b = 0#8
    · simp [Memory.set, Memory.get, hb]
    · simp [Memory.set, Memory.get, hb]
  | cons d m ih =>
    simp only [Memory.wfFrom, Bool.and_eq_true, decide_eq_true_eq] at hm
    simp only [Memory.set]
    split
    · rename_i hlt
      by_cases hb : b = 0#8
      · subst hb
        simp only [if_true]
        split
        · subst_vars
          have : Memory.wfFrom d.1 (d :: m) = true := by
            simp only [Memory.wfFrom, Bool.and_eq_true, decide_eq_true_eq]; exact ⟨⟨le_refl _, hm.1.2⟩, hm.2⟩
          exact get_below this hlt
        · rfl
      · simp only [hb, if_false, Memory.get]
    · split
      · rename_i heq
        by_cases hb : b = 0#8
        · subst hb
          simp only [if_true, Memory.get]
          split
          · exact get_below hm.2 (by omega)
          · rw [if_neg (by omega)]
        · simp only [hb, if_false, Memory.get]
          split
          · rfl
          · rw [if_neg (by omega)]
      · simp only [Memory.get]
        split
        · rw [if_neg (by omega)]
        · exact ih hm.2

/-- A read after a write to the same byte gives the byte written, and any other byte is left alone. -/
theorem get_set {m : Memory} (hm : Memory.wf m = true) (a c : Nat) (b : Byte) :
    Memory.get (Memory.set m a b) c = if c = a then b else Memory.get m c :=
  get_set_from hm a c b

/-- The byte of a word store at a byte address. -/
theorem get_setWord {m : Memory} (hm : Memory.wf m = true) (a c : Nat) (v : Word) :
    Memory.get (setWord m a v) c =
      if c = a + 3 then v.extractLsb' 24 8
      else if c = a + 2 then v.extractLsb' 16 8
      else if c = a + 1 then v.extractLsb' 8 8
      else if c = a then v.extractLsb' 0 8
      else Memory.get m c := by
  unfold setWord
  rw [get_set (wf_set (wf_set (wf_set hm _ _) _ _) _ _), get_set (wf_set (wf_set hm _ _) _ _),
    get_set (wf_set hm _ _), get_set hm]

end Sys2Proof.Machine
end

