-- ==== Sys2Proof/Laws/PerInstr.lean ====
section
/-! SUPPORT. Statements made for every instruction as syntax, one lemma per constructor. -/

namespace Sys2Proof.Laws.FieldPresence

/-- Which operands the record of an instruction has, by its format (30_encoding.md R106): `rd` in R, I and J, `rs1` in all
but J, `rs2` in R, S and B, an immediate in all but R. -/
def Statement (i : Instr) : Prop :=
  i.rd?.isSome = (i.format == .r || i.format == .i || i.format == .j) ∧
  i.rs1?.isSome = (i.format != .j) ∧
  i.rs2?.isSome = (i.format == .r || i.format == .s || i.format == .b) ∧
  i.imm?.isSome = (i.format != .r)

theorem add (rd rs1 rs2 : RegIdx) : Statement (.add rd rs1 rs2) := ⟨rfl, rfl, rfl, rfl⟩

theorem sub (rd rs1 rs2 : RegIdx) : Statement (.sub rd rs1 rs2) := ⟨rfl, rfl, rfl, rfl⟩

theorem and (rd rs1 rs2 : RegIdx) : Statement (.and rd rs1 rs2) := ⟨rfl, rfl, rfl, rfl⟩

theorem or (rd rs1 rs2 : RegIdx) : Statement (.or rd rs1 rs2) := ⟨rfl, rfl, rfl, rfl⟩

theorem xor (rd rs1 rs2 : RegIdx) : Statement (.xor rd rs1 rs2) := ⟨rfl, rfl, rfl, rfl⟩

theorem sll (rd rs1 rs2 : RegIdx) : Statement (.sll rd rs1 rs2) := ⟨rfl, rfl, rfl, rfl⟩

theorem srl (rd rs1 rs2 : RegIdx) : Statement (.srl rd rs1 rs2) := ⟨rfl, rfl, rfl, rfl⟩

theorem mul (rd rs1 rs2 : RegIdx) : Statement (.mul rd rs1 rs2) := ⟨rfl, rfl, rfl, rfl⟩

theorem div (rd rs1 rs2 : RegIdx) : Statement (.div rd rs1 rs2) := ⟨rfl, rfl, rfl, rfl⟩

theorem rem (rd rs1 rs2 : RegIdx) : Statement (.rem rd rs1 rs2) := ⟨rfl, rfl, rfl, rfl⟩

theorem addi (rd rs1 : RegIdx) (imm : Int) : Statement (.addi rd rs1 imm) := ⟨rfl, rfl, rfl, rfl⟩

theorem lw (rd rs1 : RegIdx) (imm : Int) : Statement (.lw rd rs1 imm) := ⟨rfl, rfl, rfl, rfl⟩

theorem jalr (rd rs1 : RegIdx) (imm : Int) : Statement (.jalr rd rs1 imm) := ⟨rfl, rfl, rfl, rfl⟩

theorem sw (rs1 rs2 : RegIdx) (imm : Int) : Statement (.sw rs1 rs2 imm) := ⟨rfl, rfl, rfl, rfl⟩

theorem beq (rs1 rs2 : RegIdx) (imm : Int) : Statement (.beq rs1 rs2 imm) := ⟨rfl, rfl, rfl, rfl⟩

theorem bne (rs1 rs2 : RegIdx) (imm : Int) : Statement (.bne rs1 rs2 imm) := ⟨rfl, rfl, rfl, rfl⟩

theorem blt (rs1 rs2 : RegIdx) (imm : Int) : Statement (.blt rs1 rs2 imm) := ⟨rfl, rfl, rfl, rfl⟩

theorem bge (rs1 rs2 : RegIdx) (imm : Int) : Statement (.bge rs1 rs2 imm) := ⟨rfl, rfl, rfl, rfl⟩

theorem jal (rd : RegIdx) (imm : Int) : Statement (.jal rd imm) := ⟨rfl, rfl, rfl, rfl⟩

theorem j (imm : Int) : Statement (.j imm) := ⟨rfl, rfl, rfl, rfl⟩

end Sys2Proof.Laws.FieldPresence

namespace Sys2Proof.Laws.KeyPlaced

/-- The word of an instruction has the key of the instruction's own row (30_encoding.md R103, R116); `jal` with `rd = 0`
has the key of the row `j` instead (R108). -/
def Statement (i : Instr) : Prop := i.linkNamed = true → hasKey (wordOf i) (keyOf i.mnemonic) = true

/-- An R word has its row's key, whose fields are all placed. -/
theorem hasKey_r {i : Instr} (hf : i.format = .r) (hz : (keyOf i.mnemonic).rdIsZero = none) :
    hasKey (wordOf i) (keyOf i.mnemonic) = true := by
  simp only [hasKey, opcodeOf_wordOf, funct3Of_wordOf (by rw [hf]; rfl), funct7Of_wordOf hf, hz]
  cases (keyOf i.mnemonic).funct3 <;> cases (keyOf i.mnemonic).funct7 <;> simp

/-- An I, S or B word has its row's key, which has no `funct7`. -/
theorem hasKey_isb {i : Instr} (hf : (i.format != .j) = true) (h7 : (keyOf i.mnemonic).funct7 = none)
    (hz : (keyOf i.mnemonic).rdIsZero = none) : hasKey (wordOf i) (keyOf i.mnemonic) = true := by
  simp only [hasKey, opcodeOf_wordOf, funct3Of_wordOf hf, h7, hz]
  cases (keyOf i.mnemonic).funct3 <;> simp

theorem add (rd rs1 rs2 : RegIdx) : Statement (.add rd rs1 rs2) := by
  intro _
  exact hasKey_r rfl rfl

theorem sub (rd rs1 rs2 : RegIdx) : Statement (.sub rd rs1 rs2) := by
  intro _
  exact hasKey_r rfl rfl

theorem and (rd rs1 rs2 : RegIdx) : Statement (.and rd rs1 rs2) := by
  intro _
  exact hasKey_r rfl rfl

theorem or (rd rs1 rs2 : RegIdx) : Statement (.or rd rs1 rs2) := by
  intro _
  exact hasKey_r rfl rfl

theorem xor (rd rs1 rs2 : RegIdx) : Statement (.xor rd rs1 rs2) := by
  intro _
  exact hasKey_r rfl rfl

theorem sll (rd rs1 rs2 : RegIdx) : Statement (.sll rd rs1 rs2) := by
  intro _
  exact hasKey_r rfl rfl

theorem srl (rd rs1 rs2 : RegIdx) : Statement (.srl rd rs1 rs2) := by
  intro _
  exact hasKey_r rfl rfl

theorem mul (rd rs1 rs2 : RegIdx) : Statement (.mul rd rs1 rs2) := by
  intro _
  exact hasKey_r rfl rfl

theorem div (rd rs1 rs2 : RegIdx) : Statement (.div rd rs1 rs2) := by
  intro _
  exact hasKey_r rfl rfl

theorem rem (rd rs1 rs2 : RegIdx) : Statement (.rem rd rs1 rs2) := by
  intro _
  exact hasKey_r rfl rfl

theorem addi (rd rs1 : RegIdx) (imm : Int) : Statement (.addi rd rs1 imm) := by
  intro _
  exact hasKey_isb rfl rfl rfl

theorem lw (rd rs1 : RegIdx) (imm : Int) : Statement (.lw rd rs1 imm) := by
  intro _
  exact hasKey_isb rfl rfl rfl

theorem jalr (rd rs1 : RegIdx) (imm : Int) : Statement (.jalr rd rs1 imm) := by
  intro _
  exact hasKey_isb rfl rfl rfl

theorem sw (rs1 rs2 : RegIdx) (imm : Int) : Statement (.sw rs1 rs2 imm) := by
  intro _
  exact hasKey_isb rfl rfl rfl

theorem beq (rs1 rs2 : RegIdx) (imm : Int) : Statement (.beq rs1 rs2 imm) := by
  intro _
  exact hasKey_isb rfl rfl rfl

theorem bne (rs1 rs2 : RegIdx) (imm : Int) : Statement (.bne rs1 rs2 imm) := by
  intro _
  exact hasKey_isb rfl rfl rfl

theorem blt (rs1 rs2 : RegIdx) (imm : Int) : Statement (.blt rs1 rs2 imm) := by
  intro _
  exact hasKey_isb rfl rfl rfl

theorem bge (rs1 rs2 : RegIdx) (imm : Int) : Statement (.bge rs1 rs2 imm) := by
  intro _
  exact hasKey_isb rfl rfl rfl

theorem jal (rd : RegIdx) (imm : Int) : Statement (.jal rd imm) := by
  intro h
  have h : rd ≠ 0#5 := by simpa [Instr.linkNamed] using h
  simp [hasKey, opcodeOf_wordOf, rdOf_wordOf (i := .jal rd imm) rfl, Instr.mnemonic, keyOf, Instr.rd?, h]

theorem j (imm : Int) : Statement (.j imm) := by
  intro _
  simp [hasKey, opcodeOf_wordOf, rdOf_wordOf (i := .j imm) rfl, Instr.mnemonic, keyOf, Instr.rd?]

end Sys2Proof.Laws.KeyPlaced
end

