-- ==== Sys2Proof/Laws/State.lean ====
section
/-! SUPPORT. What each update of State leaves in each field: one lemma per field per update, so that no later proof
unfolds a record update. -/

namespace Sys2Proof.Machine

/-! ### `latchFault` -/

@[simp] theorem latchFault_regs (s : State) (f : Fault) : (latchFault s f).regs = s.regs := rfl

@[simp] theorem latchFault_pc (s : State) (f : Fault) : (latchFault s f).pc = s.pc := rfl

@[simp] theorem latchFault_ifId (s : State) (f : Fault) : (latchFault s f).ifId = s.ifId := rfl

@[simp] theorem latchFault_idEx (s : State) (f : Fault) : (latchFault s f).idEx = s.idEx := rfl

@[simp] theorem latchFault_exMem (s : State) (f : Fault) : (latchFault s f).exMem = s.exMem := rfl

@[simp] theorem latchFault_memWb (s : State) (f : Fault) : (latchFault s f).memWb = s.memWb := rfl

@[simp] theorem latchFault_mem (s : State) (f : Fault) : (latchFault s f).mem = s.mem := rfl

@[simp] theorem latchFault_imem (s : State) (f : Fault) : (latchFault s f).imem = s.imem := rfl

@[simp] theorem latchFault_dmemBytes (s : State) (f : Fault) : (latchFault s f).dmemBytes = s.dmemBytes := rfl

@[simp] theorem latchFault_fault (s : State) (f : Fault) : (latchFault s f).fault = some f := rfl

@[simp] theorem latchFault_cycle (s : State) (f : Fault) : (latchFault s f).cycle = s.cycle := rfl

@[simp] theorem latchFault_touched (s : State) (f : Fault) : (latchFault s f).touched = s.touched := rfl

@[simp] theorem latchFault_stage (s : State) (f : Fault) : (latchFault s f).stage = s.stage := rfl

/-! ### `atStage` -/

@[simp] theorem atStage_regs (s : State) (st : Stage) : (atStage st s).regs = s.regs := rfl

@[simp] theorem atStage_pc (s : State) (st : Stage) : (atStage st s).pc = s.pc := rfl

@[simp] theorem atStage_ifId (s : State) (st : Stage) : (atStage st s).ifId = s.ifId := rfl

@[simp] theorem atStage_idEx (s : State) (st : Stage) : (atStage st s).idEx = s.idEx := rfl

@[simp] theorem atStage_exMem (s : State) (st : Stage) : (atStage st s).exMem = s.exMem := rfl

@[simp] theorem atStage_memWb (s : State) (st : Stage) : (atStage st s).memWb = s.memWb := rfl

@[simp] theorem atStage_mem (s : State) (st : Stage) : (atStage st s).mem = s.mem := rfl

@[simp] theorem atStage_imem (s : State) (st : Stage) : (atStage st s).imem = s.imem := rfl

@[simp] theorem atStage_dmemBytes (s : State) (st : Stage) : (atStage st s).dmemBytes = s.dmemBytes := rfl

@[simp] theorem atStage_fault (s : State) (st : Stage) : (atStage st s).fault = s.fault := rfl

@[simp] theorem atStage_cycle (s : State) (st : Stage) : (atStage st s).cycle = s.cycle := rfl

@[simp] theorem atStage_touched (s : State) (st : Stage) : (atStage st s).touched = s.touched := rfl

@[simp] theorem atStage_stage (s : State) (st : Stage) : (atStage st s).stage = st := rfl

/-! ### `redirect` -/

@[simp] theorem redirect_regs (s : State) (t : Word) : (redirect s t).regs = s.regs := rfl

@[simp] theorem redirect_pc (s : State) (t : Word) : (redirect s t).pc = t := rfl

@[simp] theorem redirect_ifId (s : State) (t : Word) : (redirect s t).ifId = bubble t := rfl

@[simp] theorem redirect_idEx (s : State) (t : Word) : (redirect s t).idEx = s.idEx := rfl

@[simp] theorem redirect_exMem (s : State) (t : Word) : (redirect s t).exMem = s.exMem := rfl

@[simp] theorem redirect_memWb (s : State) (t : Word) : (redirect s t).memWb = s.memWb := rfl

@[simp] theorem redirect_mem (s : State) (t : Word) : (redirect s t).mem = s.mem := rfl

@[simp] theorem redirect_imem (s : State) (t : Word) : (redirect s t).imem = s.imem := rfl

@[simp] theorem redirect_dmemBytes (s : State) (t : Word) : (redirect s t).dmemBytes = s.dmemBytes := rfl

@[simp] theorem redirect_fault (s : State) (t : Word) : (redirect s t).fault = s.fault := rfl

@[simp] theorem redirect_cycle (s : State) (t : Word) : (redirect s t).cycle = s.cycle := rfl

@[simp] theorem redirect_touched (s : State) (t : Word) : (redirect s t).touched = s.touched := rfl

@[simp] theorem redirect_stage (s : State) (t : Word) : (redirect s t).stage = s.stage := rfl

/-! ### `exResult` -/

@[simp] theorem exResult_regs (s : State) (c : IdExData) (r : Word) : (exResult s c r).regs = s.regs := rfl

@[simp] theorem exResult_pc (s : State) (c : IdExData) (r : Word) : (exResult s c r).pc = s.pc := rfl

@[simp] theorem exResult_ifId (s : State) (c : IdExData) (r : Word) : (exResult s c r).ifId = s.ifId := rfl

@[simp] theorem exResult_idEx (s : State) (c : IdExData) (r : Word) : (exResult s c r).idEx = s.idEx := rfl

@[simp] theorem exResult_exMem (s : State) (c : IdExData) (r : Word) : (exResult s c r).exMem = { pc := s.idEx.pc, content := some { instr := c.instr, aluResult := r, rs2Val := c.rs2Val } } := rfl

@[simp] theorem exResult_memWb (s : State) (c : IdExData) (r : Word) : (exResult s c r).memWb = s.memWb := rfl

@[simp] theorem exResult_mem (s : State) (c : IdExData) (r : Word) : (exResult s c r).mem = s.mem := rfl

@[simp] theorem exResult_imem (s : State) (c : IdExData) (r : Word) : (exResult s c r).imem = s.imem := rfl

@[simp] theorem exResult_dmemBytes (s : State) (c : IdExData) (r : Word) : (exResult s c r).dmemBytes = s.dmemBytes := rfl

@[simp] theorem exResult_fault (s : State) (c : IdExData) (r : Word) : (exResult s c r).fault = s.fault := rfl

@[simp] theorem exResult_cycle (s : State) (c : IdExData) (r : Word) : (exResult s c r).cycle = s.cycle := rfl

@[simp] theorem exResult_touched (s : State) (c : IdExData) (r : Word) : (exResult s c r).touched = s.touched := rfl

@[simp] theorem exResult_stage (s : State) (c : IdExData) (r : Word) : (exResult s c r).stage = s.stage := rfl

/-! ### `fetch`, which changes IF_ID and `pc` only -/

@[simp] theorem fetch_regs (s : State) : (fetch s).regs = s.regs := by
  unfold fetch; split <;> rfl

@[simp] theorem fetch_idEx (s : State) : (fetch s).idEx = s.idEx := by
  unfold fetch; split <;> rfl

@[simp] theorem fetch_exMem (s : State) : (fetch s).exMem = s.exMem := by
  unfold fetch; split <;> rfl

@[simp] theorem fetch_memWb (s : State) : (fetch s).memWb = s.memWb := by
  unfold fetch; split <;> rfl

@[simp] theorem fetch_mem (s : State) : (fetch s).mem = s.mem := by
  unfold fetch; split <;> rfl

@[simp] theorem fetch_imem (s : State) : (fetch s).imem = s.imem := by
  unfold fetch; split <;> rfl

@[simp] theorem fetch_dmemBytes (s : State) : (fetch s).dmemBytes = s.dmemBytes := by
  unfold fetch; split <;> rfl

@[simp] theorem fetch_fault (s : State) : (fetch s).fault = s.fault := by
  unfold fetch; split <;> rfl

@[simp] theorem fetch_cycle (s : State) : (fetch s).cycle = s.cycle := by
  unfold fetch; split <;> rfl

@[simp] theorem fetch_touched (s : State) : (fetch s).touched = s.touched := by
  unfold fetch; split <;> rfl

@[simp] theorem fetch_stage (s : State) : (fetch s).stage = s.stage := by
  unfold fetch; split <;> rfl

/-! ### `issue`, which changes ID_EX only -/

@[simp] theorem issue_regs (a b : Option RegIdx) (s : State) : (issue a b s).regs = s.regs := by
  unfold issue; split <;> rfl

@[simp] theorem issue_pc (a b : Option RegIdx) (s : State) : (issue a b s).pc = s.pc := by
  unfold issue; split <;> rfl

@[simp] theorem issue_ifId (a b : Option RegIdx) (s : State) : (issue a b s).ifId = s.ifId := by
  unfold issue; split <;> rfl

@[simp] theorem issue_exMem (a b : Option RegIdx) (s : State) : (issue a b s).exMem = s.exMem := by
  unfold issue; split <;> rfl

@[simp] theorem issue_memWb (a b : Option RegIdx) (s : State) : (issue a b s).memWb = s.memWb := by
  unfold issue; split <;> rfl

@[simp] theorem issue_mem (a b : Option RegIdx) (s : State) : (issue a b s).mem = s.mem := by
  unfold issue; split <;> rfl

@[simp] theorem issue_imem (a b : Option RegIdx) (s : State) : (issue a b s).imem = s.imem := by
  unfold issue; split <;> rfl

@[simp] theorem issue_dmemBytes (a b : Option RegIdx) (s : State) : (issue a b s).dmemBytes = s.dmemBytes := by
  unfold issue; split <;> rfl

@[simp] theorem issue_fault (a b : Option RegIdx) (s : State) : (issue a b s).fault = s.fault := by
  unfold issue; split <;> rfl

@[simp] theorem issue_cycle (a b : Option RegIdx) (s : State) : (issue a b s).cycle = s.cycle := by
  unfold issue; split <;> rfl

@[simp] theorem issue_touched (a b : Option RegIdx) (s : State) : (issue a b s).touched = s.touched := by
  unfold issue; split <;> rfl

@[simp] theorem issue_stage (a b : Option RegIdx) (s : State) : (issue a b s).stage = s.stage := by
  unfold issue; split <;> rfl

/-! ### `bubble` -/

@[simp] theorem bubble_pc {α : Type} (p : Word) : (bubble p : Slot α).pc = p := rfl

@[simp] theorem bubble_content {α : Type} (p : Word) : (bubble p : Slot α).content = none := rfl

end Sys2Proof.Machine
end

