-- ==== Sys2Proof/Laws/Stages.lean ====
section
/-! SUPPORT. One lemma for each shared operation that says everything it can do when it answers a next state; what an
instruction can do in each stage; what a step can do. Later proofs cite these instead of unfolding the operations. -/

namespace Sys2Proof.Machine

/-! ### Sequencing -/

theorem andThen_next {o : StepOutcome} {f : State → StepOutcome} {t : State} :
    andThen o f = .next t ↔ ∃ s, o = .next s ∧ f s = .next t := by
  cases o <;> simp [andThen]

theorem andThen_fault {o : StepOutcome} {f : State → StepOutcome} {r : Fault} :
    andThen o f = .fault r ↔ o = .fault r ∨ ∃ s, o = .next s ∧ f s = .fault r := by
  cases o <;> simp [andThen]

theorem andThen_refused {o : StepOutcome} {f : State → StepOutcome} {r : Refusal} :
    andThen o f = .refused r ↔ o = .refused r ∨ ∃ s, o = .next s ∧ f s = .refused r := by
  cases o <;> simp [andThen]

/-! ### The shared operations -/

/-- `writeBack` always answers: nothing on a bubble, else the register write. -/
theorem writeBack_next {rd : RegIdx} {s t : State} (h : writeBack rd s = .next t) :
    (s.memWb.content = none ∧ t = s) ∨
    ∃ c, s.memWb.content = some c ∧ t = { s with regs := writeLane s.regs rd c.result } := by
  unfold writeBack at h
  split at h <;> cases h
  · exact .inr ⟨_, ‹_›, rfl⟩
  · exact .inl ⟨‹_›, rfl⟩

theorem memPass_next {s t : State} (h : memPass s = .next t) :
    (s.exMem.content = none ∧ t = { s with memWb := bubble s.exMem.pc }) ∨
    ∃ c, s.exMem.content = some c ∧
      t = { s with memWb := { pc := s.exMem.pc, content := some { instr := c.instr, result := c.aluResult } } } := by
  unfold memPass at h
  split at h <;> cases h
  · exact .inr ⟨_, ‹_›, rfl⟩
  · exact .inl ⟨‹_›, rfl⟩

theorem memLoad_next {s t : State} (h : memLoad s = .next t) :
    (s.exMem.content = none ∧ t = { s with memWb := bubble s.exMem.pc }) ∨
    ∃ c, s.exMem.content = some c ∧ c.aluResult.toNat + 4 ≤ s.dmemBytes ∧
      t = { s with memWb := ⟨s.exMem.pc, some ⟨c.instr, wordAt s.mem c.aluResult.toNat⟩⟩ } := by
  unfold memLoad readWord raise at h
  split at h
  · split at h <;> cases h
    rename_i heq
    split at heq <;> cases heq
    exact .inr ⟨_, ‹_›, ‹_›, rfl⟩
  · cases h; exact .inl ⟨‹_›, rfl⟩

theorem memPass_frame {s t : State} (h : memPass s = .next t) : t = { s with memWb := t.memWb } := by
  rcases memPass_next h with ⟨_, rfl⟩ | ⟨c, _, rfl⟩ <;> rfl

theorem memLoad_frame {s t : State} (h : memLoad s = .next t) : t = { s with memWb := t.memWb } := by
  rcases memLoad_next h with ⟨_, rfl⟩ | ⟨c, _, _, rfl⟩ <;> rfl

theorem memStore_next {s t : State} (h : memStore s = .next t) :
    (s.exMem.content = none ∧ t = { s with memWb := bubble s.exMem.pc }) ∨
    ∃ c, s.exMem.content = some c ∧ c.aluResult.toNat + 4 ≤ s.dmemBytes ∧
      t = { s with
        mem := setWord s.mem c.aluResult.toNat c.rs2Val
        touched := noteStore s.touched c.aluResult.toNat
        memWb := { pc := s.exMem.pc, content := some { instr := c.instr, result := c.aluResult } } } := by
  unfold memStore writeWord raise at h
  split at h
  · split at h <;> cases h
    rename_i heq
    split at heq <;> cases heq
    exact .inr ⟨_, ‹_›, ‹_›, rfl⟩
  · cases h; exact .inl ⟨‹_›, rfl⟩

theorem exAlu_next {op : AluOp} {imm : Option Int} {s t : State} (h : exAlu op imm s = .next t) :
    (s.idEx.content = none ∧ t = { s with exMem := bubble s.idEx.pc }) ∨
    ∃ c r, s.idEx.content = some c ∧ operate op c.rs1Val (secondOperand imm c.rs2Val) = .value r ∧
      t = exResult s c r := by
  unfold exAlu raise at h
  split at h
  · split at h <;> cases h
    exact .inr ⟨_, _, ‹_›, ‹_›, rfl⟩
  · cases h; exact .inl ⟨‹_›, rfl⟩

theorem exLink_next {s t : State} (h : exLink s = .next t) :
    (s.idEx.content = none ∧ t = { s with exMem := bubble s.idEx.pc }) ∨
    ∃ c, s.idEx.content = some c ∧ t = exResult s c (linkValue s.idEx.pc) := by
  unfold exLink at h
  split at h <;> cases h
  · exact .inr ⟨_, ‹_›, rfl⟩
  · exact .inl ⟨‹_›, rfl⟩

theorem exZero_next {s t : State} (h : exZero s = .next t) :
    (s.idEx.content = none ∧ t = { s with exMem := bubble s.idEx.pc }) ∨
    ∃ c, s.idEx.content = some c ∧ t = exResult s c 0#32 := by
  unfold exZero at h
  split at h <;> cases h
  · exact .inr ⟨_, ‹_›, rfl⟩
  · exact .inl ⟨‹_›, rfl⟩

theorem idPlain_next {a b : Option RegIdx} {s t : State} (h : idPlain a b s = .next t) : t = fetch (issue a b s) := by
  cases h; rfl

theorem idTransfer_next {a b : Option RegIdx} {taken : Word → Word → Bool} {target : Word → Word → Word}
    {s t : State} (h : idTransfer a b taken target s = .next t) :
    ((s.ifId.content = none ∨ taken (sourceValue s a) (sourceValue s b) = false) ∧ t = fetch (issue a b s)) ∨
    (s.ifId.content ≠ none ∧ taken (sourceValue s a) (sourceValue s b) = true ∧
      (target s.ifId.pc (sourceValue s a)).toNat % 4 = 0 ∧
      t = redirect (issue a b s) (target s.ifId.pc (sourceValue s a))) := by
  unfold idTransfer targetAligned raise at h
  split at h
  · rename_i heq
    simp only [decide_eq_true_eq] at h
    split at h
    · split at h <;> cases h
      exact .inr ⟨by simp [heq], ‹_›, ‹_›, rfl⟩
    · cases h
      rename_i hn; exact .inl ⟨.inr (Bool.eq_false_iff.2 hn), rfl⟩
  · cases h; exact .inl ⟨.inl ‹_›, rfl⟩

theorem fetch_cases (s : State) :
    (∃ w, instructionFetch s.imem s.pc = some w ∧
      fetch s = { s with ifId := { pc := s.pc, content := some w }, pc := s.pc + 4#32 }) ∨
    (instructionFetch s.imem s.pc = none ∧ fetch s = { s with ifId := bubble s.pc }) := by
  unfold fetch
  split
  · exact .inl ⟨_, ‹_›, rfl⟩
  · exact .inr ⟨‹_›, rfl⟩

/-! ### An instruction in each stage -/

/-- In WB an instruction writes at most its own `rd`, and always answers. -/
theorem exec_wb_next {i : Instr} {s t : State} (hs : s.stage = .wb) (h : exec i s = .next t) :
    t = s ∨ ∃ rd c, i.rd? = some rd ∧ s.memWb.content = some c ∧
      t = { s with regs := writeLane s.regs rd c.result } := by
  cases i <;>
    simp only [exec, execAdd, execSub, execAnd, execOr, execXor, execSll, execSrl, execMul, execDiv, execRem,
      execRFormat, execAddi, execLw, execSw, execBeq, execBne, execBlt, execBge, execBranch, execJal, execJ, execJump,
      execJalr, hs] at h
  all_goals first
    | (cases h; exact .inl rfl)
    | exact (writeBack_next h).imp And.right fun ⟨c, hc, ht⟩ => ⟨_, c, rfl, hc, ht⟩

/-- In MEM an instruction replaces MEM_WB, and a `sw` its four bytes. -/
theorem exec_mem_next {i : Instr} {s t : State} (hs : s.stage = .mem) (h : exec i s = .next t) :
    t = { s with memWb := t.memWb } ∨
    ∃ c, i.mnemonic = .sw ∧ s.exMem.content = some c ∧ c.aluResult.toNat + 4 ≤ s.dmemBytes ∧
      t = { s with
        mem := setWord s.mem c.aluResult.toNat c.rs2Val
        touched := noteStore s.touched c.aluResult.toNat
        memWb := { pc := s.exMem.pc, content := some { instr := c.instr, result := c.aluResult } } } := by
  cases i <;>
    simp only [exec, execAdd, execSub, execAnd, execOr, execXor, execSll, execSrl, execMul, execDiv, execRem,
      execRFormat, execAddi, execLw, execSw, execBeq, execBne, execBlt, execBge, execBranch, execJal, execJ, execJump,
      execJalr, hs] at h
  all_goals first
    | exact .inl (memPass_frame h)
    | exact .inl (memLoad_frame h)
    | exact (memStore_next h).imp (fun (hb : _ ∧ _) => by rw [hb.2]) fun ⟨c, h1, h2, h3⟩ => ⟨c, rfl, h1, h2, h3⟩

/-- In EX an instruction replaces EX_MEM only. -/
theorem exec_ex_next {i : Instr} {s t : State} (hs : s.stage = .ex) (h : exec i s = .next t) :
    (s.idEx.content = none ∧ t = { s with exMem := bubble s.idEx.pc }) ∨
    ∃ c r, s.idEx.content = some c ∧ t = exResult s c r := by
  cases i <;>
    simp only [exec, execAdd, execSub, execAnd, execOr, execXor, execSll, execSrl, execMul, execDiv, execRem,
      execRFormat, execAddi, execLw, execSw, execBeq, execBne, execBlt, execBge, execBranch, execJal, execJ, execJump,
      execJalr, hs] at h
  all_goals first
    | exact (exAlu_next h).imp_right fun ⟨c, r, hc, _, ht⟩ => ⟨c, r, hc, ht⟩
    | exact (exLink_next h).imp_right fun ⟨c, hc, ht⟩ => ⟨c, _, hc, ht⟩
    | exact (exZero_next h).imp_right fun ⟨c, hc, ht⟩ => ⟨c, _, hc, ht⟩

/-- In ID an instruction hands its operand values to EX, and IF fetches or the transfer redirects to an aligned target. -/
theorem exec_id_next {i : Instr} {s t : State} (hs : s.stage = .id) (h : exec i s = .next t) :
    t = fetch (issue i.rs1? i.rs2? s) ∨
    ∃ target, s.ifId.content ≠ none ∧ target.toNat % 4 = 0 ∧ t = redirect (issue i.rs1? i.rs2? s) target := by
  cases i <;>
    simp only [exec, execAdd, execSub, execAnd, execOr, execXor, execSll, execSrl, execMul, execDiv, execRem,
      execRFormat, execAddi, execLw, execSw, execBeq, execBne, execBlt, execBge, execBranch, execJal, execJ, execJump,
      execJalr, hs] at h
  all_goals first
    | exact .inl (idPlain_next h)
    | exact (idTransfer_next h).imp And.right fun ⟨h1, _, h2, ht⟩ => ⟨_, h1, h2, ht⟩

/-- No meaning refuses. -/
theorem exec_not_refused (i : Instr) (s : State) (r : Refusal) : exec i s ≠ .refused r := by
  intro h
  cases hs : s.stage <;> cases i <;>
    simp only [exec, execAdd, execSub, execAnd, execOr, execXor, execSll, execSrl, execMul, execDiv, execRem,
      execRFormat, execAddi, execLw, execSw, execBeq, execBne, execBlt, execBge, execBranch, execJal, execJ, execJump,
      execJalr, hs, writeBack, noWriteBack, memPass, memLoad, memStore, exAlu, exLink, exZero, idPlain, idTransfer,
      raise] at h <;>
    (repeat' split at h) <;> cases h

/-! ### A step -/

/-- A step that answers a next state had a clear latch and went through WB, MEM, EX and ID (with IF). -/
theorem step_next {s t : State} (h : step s = .next t) :
    s.fault = none ∧ ∃ s1 s2 s3 s4, wbStage s = .next s1 ∧ memStage s1 = .next s2 ∧ exStage s2 = .next s3 ∧
      idStage s3 = .next s4 ∧ t = { s4 with cycle := s4.cycle + 1, stage := .id } := by
  unfold step cycle raise at h
  split at h
  · cases h
  · refine ⟨‹_›, ?_⟩
    unfold runCycle olderStages commit at h
    obtain ⟨s4, h4, h⟩ := andThen_next.1 h
    obtain ⟨s3, h3, h4⟩ := andThen_next.1 h4
    obtain ⟨s2, h2, h3⟩ := andThen_next.1 h3
    obtain ⟨s1, h1, h2⟩ := andThen_next.1 h2
    cases h
    exact ⟨s1, s2, s3, s4, h1, h2, h3, h4, rfl⟩

/-- WB changes registers only. -/
theorem wbStage_next {s t : State} (h : wbStage s = .next t) : t = { s with regs := t.regs, stage := t.stage } := by
  unfold wbStage noWriteBack at h
  split at h
  · cases h; rfl
  · split at h
    · cases h; rfl
    · rcases exec_wb_next rfl h with rfl | ⟨rd, c, _, _, rfl⟩ <;> rfl

/-- MEM changes MEM_WB, the memory and the noted stores only. -/
theorem memStage_next {s t : State} (h : memStage s = .next t) :
    t = { s with memWb := t.memWb, mem := t.mem, touched := t.touched, stage := t.stage } := by
  unfold memStage at h
  split at h
  · rcases memPass_next h with ⟨_, rfl⟩ | ⟨c, _, rfl⟩ <;> rfl
  · split at h
    · rcases memPass_next h with ⟨_, rfl⟩ | ⟨c, _, rfl⟩ <;> rfl
    · rcases exec_mem_next rfl h with ht | ⟨c, _, _, _, rfl⟩
      · rw [ht]; rfl
      · rfl

/-- EX changes EX_MEM only. -/
theorem exStage_next {s t : State} (h : exStage s = .next t) : t = { s with exMem := t.exMem, stage := t.stage } := by
  unfold exStage at h
  split at h
  · rcases exZero_next h with ⟨_, rfl⟩ | ⟨c, _, rfl⟩ <;> rfl
  · split at h
    · rcases exZero_next h with ⟨_, rfl⟩ | ⟨c, _, rfl⟩ <;> rfl
    · rcases exec_ex_next rfl h with ⟨_, rfl⟩ | ⟨c, r, _, rfl⟩ <;> rfl

end Sys2Proof.Machine
end

