-- ==== Sys2Proof/Tests/Slice0.lean ====
section
/-! SUPPORT. Tests: small, one step each, expected values from 95_test_vectors.md or computed by hand from the rules; and
for every obligation with hypotheses, a concrete input that meets them together. -/

open Sys2Proof Sys2Proof.Machine Sys2Proof.Claims

namespace Sys2Proof.Tests

/-! ### Well-formedness: one ill-formed term for each check (R115), beside the last value in range -/

theorem test_wf_addi_too_large : (Instr.addi 1 2 2048).wellFormed = false ∧ (Instr.addi 1 2 2047).wellFormed = true := by
  decide

theorem test_wf_addi_too_small : (Instr.addi 1 2 (-2049)).wellFormed = false ∧ (Instr.addi 1 2 (-2048)).wellFormed = true := by
  decide

theorem test_wf_lw_too_large : (Instr.lw 1 2 2048).wellFormed = false := by decide

theorem test_wf_jalr_too_small : (Instr.jalr 1 2 (-2049)).wellFormed = false := by decide

theorem test_wf_sw_too_large : (Instr.sw 1 2 2048).wellFormed = false := by decide

theorem test_wf_beq_too_large : (Instr.beq 1 2 4096).wellFormed = false ∧ (Instr.beq 1 2 4094).wellFormed = true := by
  decide

theorem test_wf_bne_too_small : (Instr.bne 1 2 (-4098)).wellFormed = false ∧ (Instr.bne 1 2 (-4096)).wellFormed = true := by
  decide

theorem test_wf_blt_odd : (Instr.blt 1 2 3).wellFormed = false := by decide

theorem test_wf_bge_odd : (Instr.bge 1 2 (-1)).wellFormed = false := by decide

theorem test_wf_jal_too_large : (Instr.jal 1 1048576).wellFormed = false ∧ (Instr.jal 1 1048574).wellFormed = true := by
  decide

theorem test_wf_jal_too_small :
    (Instr.jal 1 (-1048578)).wellFormed = false ∧ (Instr.jal 1 (-1048576)).wellFormed = true := by decide

theorem test_wf_j_odd : (Instr.j 5).wellFormed = false := by decide

theorem test_wf_jal_without_link : (Instr.jal 0 8).wellFormed = false := by decide

/-! ### Decoding: a word of every instruction, written field by field from R92 to R104 -/

/-- `{funct7, rs2, rs1, funct3, rd, opcode}` (R92). -/
def fieldsR (funct7 : BitVec 7) (rs2 rs1 : BitVec 5) (funct3 : BitVec 3) (rd : BitVec 5) (opcode : BitVec 7) : Nat :=
  (funct7 ++ rs2 ++ rs1 ++ funct3 ++ rd ++ opcode : BitVec (7 + 5 + 5 + 3 + 5 + 7)).toNat

/-- `{imm[11:0], rs1, funct3, rd, opcode}` (R93). -/
def fieldsI (imm : BitVec 12) (rs1 : BitVec 5) (funct3 : BitVec 3) (rd : BitVec 5) (opcode : BitVec 7) : Nat :=
  (imm ++ rs1 ++ funct3 ++ rd ++ opcode : BitVec (12 + 5 + 3 + 5 + 7)).toNat

theorem test_decode_add :
    decodeTableWord 32 (fieldsR 0b0000000 0b00110 0b00101 0b000 0b00111 0b0110011) = some (.add 7 5 6) := by decide

theorem test_decode_sub :
    decodeTableWord 32 (fieldsR 0b0100000 0b01100 0b01011 0b000 0b01010 0b0110011) = some (.sub 10 11 12) := by decide

theorem test_decode_and :
    decodeTableWord 32 (fieldsR 0b0000000 0b00011 0b00010 0b111 0b00001 0b0110011) = some (.and 1 2 3) := by decide

theorem test_decode_or :
    decodeTableWord 32 (fieldsR 0b0000000 0b11101 0b11110 0b110 0b11111 0b0110011) = some (.or 31 30 29) := by decide

theorem test_decode_xor :
    decodeTableWord 32 (fieldsR 0b0000000 0b10010 0b01001 0b100 0b01000 0b0110011) = some (.xor 8 9 18) := by decide

theorem test_decode_sll :
    decodeTableWord 32 (fieldsR 0b0000000 0b00111 0b00110 0b001 0b00101 0b0110011) = some (.sll 5 6 7) := by decide

theorem test_decode_srl :
    decodeTableWord 32 (fieldsR 0b0000000 0b00111 0b00110 0b101 0b00101 0b0110011) = some (.srl 5 6 7) := by decide

theorem test_decode_mul :
    decodeTableWord 32 (fieldsR 0b0000001 0b01011 0b01010 0b000 0b01010 0b0110011) = some (.mul 10 10 11) := by decide

theorem test_decode_div :
    decodeTableWord 32 (fieldsR 0b0000001 0b01110 0b01101 0b100 0b01100 0b0110011) = some (.div 12 13 14) := by decide

theorem test_decode_rem :
    decodeTableWord 32 (fieldsR 0b0000001 0b10001 0b10000 0b110 0b01111 0b0110011) = some (.rem 15 16 17) := by decide

theorem test_decode_addi :
    decodeTableWord 32 (fieldsI 0b100000000000 0b00010 0b000 0b00001 0b0010011) = some (.addi 1 2 (-2048)) := by decide

theorem test_decode_lw :
    decodeTableWord 32 (fieldsI 0b111111111100 0b01000 0b010 0b01010 0b0000011) = some (.lw 10 8 (-4)) := by decide

theorem test_decode_jalr :
    decodeTableWord 32 (fieldsI 0b000000001000 0b00101 0b000 0b00001 0b1100111) = some (.jalr 1 5 8) := by decide

/-- `{imm[11:5], rs2, rs1, funct3, imm[4:0], opcode}` (R94), the offset -4. -/
theorem test_decode_sw :
    decodeTableWord 32 (fieldsR 0b1111111 0b01010 0b01000 0b010 0b11100 0b0100011) = some (.sw 8 10 (-4)) := by decide

/-- `{imm[12], imm[10:5]}, rs2, rs1, funct3, {imm[4:1], imm[11]}` (R95): bit 11 alone is 2048. -/
theorem test_decode_beq :
    decodeTableWord 32 (fieldsR 0b0000000 0b00000 0b00000 0b000 0b00001 0b1100011) = some (.beq 0 0 2048) := by decide

/-- The offset -12: `1 1 111111 1010 0`. -/
theorem test_decode_bne :
    decodeTableWord 32 (fieldsR 0b1111111 0b00000 0b00101 0b001 0b10101 0b1100011) = some (.bne 5 0 (-12)) := by decide

/-- The offset 4094: `0 1 111111 1111 0`. -/
theorem test_decode_blt :
    decodeTableWord 32 (fieldsR 0b0111111 0b01011 0b01010 0b100 0b11111 0b1100011) = some (.blt 10 11 4094) := by decide

/-- The offset -4096: `1 0 000000 0000 0`. -/
theorem test_decode_bge :
    decodeTableWord 32 (fieldsR 0b1000000 0b01011 0b01010 0b101 0b00000 0b1100011) = some (.bge 10 11 (-4096)) := by decide

/-- `{imm[20], imm[10:1], imm[11], imm[19:12]}, rd, opcode` (R96): the offset 4098 has bits 12 and 1. -/
theorem test_decode_jal :
    decodeTableWord 32
      (0b0#1 ++ 0b0000000001#10 ++ 0b0#1 ++ 0b00000001#8 ++ 0b00001#5 ++ 0b1101111#7 : BitVec (1 + 10 + 1 + 8 + 5 + 7)).toNat =
      some (.jal 1 4098) := by decide

/-- The offset -16 with `rd = 0` (R108). -/
theorem test_decode_j :
    decodeTableWord 32
      (0b1#1 ++ 0b1111111000#10 ++ 0b1#1 ++ 0b11111111#8 ++ 0b00000#5 ++ 0b1101111#7 : BitVec (1 + 10 + 1 + 8 + 5 + 7)).toNat =
      some (.j (-16)) := by decide

/-- 95_test_vectors.md 2.2: words whose key fields name no row. -/
theorem test_decode_unknown :
    decode 0x00001013 = .unknown ⟨0x13, 1, 0⟩ ∧ decode 0x02001033 = .unknown ⟨0x33, 1, 1⟩ ∧
    decode 0x20000033 = .unknown ⟨0x33, 0, 0x10⟩ ∧ decode 0x00000000 = .unknown ⟨0, 0, 0⟩ := by decide

/-! ### One stage of one instruction (95_test_vectors.md parts 3, 5, 6) -/

/-- The state an outcome goes on in, if it does. -/
def got (o : StepOutcome) : Option State :=
  match o with
  | .next s => some s
  | _ => none

/-- The fault an outcome ends in, if it does. -/
def faulted (o : StepOutcome) : Option Fault :=
  match o with
  | .fault f => some f
  | _ => none

/-- `i` in EX at address `pc` with its two operand values. -/
def inEx (i : Instr) (pc a b : Word) : State :=
  { State.reset with stage := .ex, idEx := ⟨pc, some ⟨.known i ⟨0, 0, 0⟩, a, b⟩⟩ }

/-- `i` in MEM at address `pc` with an ALU result and the carried `rs2` value. -/
def inMem (i : Instr) (pc r b : Word) (m : Memory) : State :=
  { State.reset with stage := .mem, mem := m, exMem := ⟨pc, some ⟨.known i ⟨0, 0, 0⟩, r, b⟩⟩ }

/-- `i` in WB with a result. -/
def inWb (i : Instr) (r : Word) : State :=
  { State.reset with stage := .wb, memWb := ⟨0, some ⟨.known i ⟨0, 0, 0⟩, r⟩⟩ }

/-- A word in ID at address `pc`, with two registers set; the next fetch address is `pc + 4`. -/
def inId (w pc : Word) (r1 : RegIdx) (v1 : Word) (r2 : RegIdx) (v2 : Word) : State :=
  { State.reset with
    pc := pc + 4
    ifId := ⟨pc, some w⟩
    regs := writeLane (writeLane State.reset.regs r1 v1) r2 v2 }

/-- The ALU result an instruction leaves in EX_MEM. -/
def exResultOf (i : Instr) (pc a b : Word) : Option Word :=
  (got (exec i (inEx i pc a b))).bind fun t => t.exMem.content.map fun c => c.aluResult

/-- The result an instruction leaves in MEM_WB. -/
def memResultOf (i : Instr) (r b : Word) (m : Memory) : Option Word :=
  (got (exec i (inMem i 0 r b m))).bind fun t => t.memWb.content.map fun c => c.result

/-- `pc` and the content of IF_ID after the ID cycle. -/
def idOutcome (i : Instr) (s : State) : Option (Word × Option Word) :=
  (got (exec i s)).map fun t => (t.pc, t.ifId.content)

theorem test_add_wraps : exResultOf (.add 7 5 6) 0 0xFFFFFFFF 1 = some 0 := by decide

theorem test_sub_borrows : exResultOf (.sub 10 11 12) 0 3 5 = some 0xFFFFFFFE := by decide

theorem test_and : exResultOf (.and 1 2 3) 0 0xF0F0F0F0 0xFF00FF00 = some 0xF000F000 := by decide

theorem test_or : exResultOf (.or 31 30 29) 0 0xF0F0F0F0 0xFF00FF00 = some 0xFFF0FFF0 := by decide

theorem test_xor : exResultOf (.xor 8 9 18) 0 0xF0F0F0F0 0xFF00FF00 = some 0x0FF00FF0 := by decide

theorem test_sll_masks_amount : exResultOf (.sll 5 6 7) 0 1 0x21 = some 2 := by decide

theorem test_srl_masks_amount : exResultOf (.srl 5 6 7) 0 0x80000000 0xFFFFFFE1 = some 0x40000000 := by decide

theorem test_mul_low_half : exResultOf (.mul 10 10 11) 0 0x12345678 0x9ABCDEF0 = some 0x242D2080 := by decide

theorem test_div_is_unsigned : exResultOf (.div 12 13 14) 0 0xFFFFFFF9 2 = some 0x7FFFFFFC := by decide

theorem test_div_by_zero_to_lane_zero :
    faulted (exec (.div 0 13 14) (inEx (.div 0 13 14) 8 7 0)) = some (.divisionByZero 8) := by decide

theorem test_rem_is_unsigned : exResultOf (.rem 15 16 17) 0 0x80000000 0xFFFFFFFF = some 0x80000000 := by decide

theorem test_rem_by_zero :
    faulted (exec (.rem 15 16 17) (inEx (.rem 15 16 17) 4 9 0)) = some (.divisionByZero 4) := by decide

theorem test_addi_sign_extends : exResultOf (.addi 1 2 (-2048)) 0 0 0 = some 0xFFFFF800 := by decide

theorem test_addi_lane_zero_dropped : (got (exec (.addi 0 0 5) (inWb (.addi 0 0 5) 5))).map (fun t => t.regs) =
    some State.reset.regs := by decide

theorem test_lw_misaligned : memResultOf (.lw 28 2 0) 0x102 0
    [(0x100, 0x11), (0x101, 0x22), (0x102, 0x33), (0x103, 0x44), (0x104, 0x55), (0x105, 0x66)] = some 0x66554433 := by
  decide

theorem test_lw_last_word_and_beyond :
    memResultOf (.lw 28 2 0) 0xFFC 0 [] = some 0 ∧
    faulted (exec (.lw 28 2 0) (inMem (.lw 28 2 0) 12 0xFFD 0 [])) = some (.addressError .load 0xFFD 12) := by decide

theorem test_sw_bytes : (got (exec (.sw 8 10 (-4)) (inMem (.sw 8 10 (-4)) 0 0x100 0xDEADBEEF []))).map (fun t => t.mem) =
    some [(0x100, 0xEF), (0x101, 0xBE), (0x102, 0xAD), (0x103, 0xDE)] := by decide

theorem test_sw_beyond :
    faulted (exec (.sw 2 7 0) (inMem (.sw 2 7 0) 16 0xFFE 8 [])) = some (.addressError .store 0xFFE 16) := by decide

theorem test_beq : idOutcome (.beq 5 6 8) (inId 0x00628463 0x10 5 5 6 5) = some (0x18, none) ∧
    idOutcome (.beq 5 6 8) (inId 0x00628463 0x10 5 5 6 6) = some (0x14, none) := by decide

theorem test_beq_misaligned :
    faulted (exec (.beq 5 6 2) (inId 0x00628163 0x10 5 1 6 1)) = some (.misalignedTarget 0x12 0x10) ∧
    idOutcome (.beq 5 6 2) (inId 0x00628163 0x10 5 1 6 2) = some (0x14, none) := by decide

theorem test_bne : idOutcome (.bne 5 0 (-12)) (inId 0xFE029AE3 0x18 5 3 0 0) = some (0xC, none) ∧
    idOutcome (.bne 5 0 (-12)) (inId 0xFE029AE3 0x18 5 0 0 0) = some (0x1C, none) := by decide

theorem test_blt_signed : idOutcome (.blt 10 11 16) (inId 0x00B54863 0x20 10 0x80000000 11 0x7FFFFFFF) = some (0x30, none) ∧
    idOutcome (.blt 10 11 16) (inId 0x00B54863 0x20 10 4 11 4) = some (0x24, none) := by decide

theorem test_bge_signed : idOutcome (.bge 10 11 16) (inId 0x00B55863 0x20 10 4 11 4) = some (0x30, none) ∧
    idOutcome (.bge 10 11 16) (inId 0x00B55863 0x20 10 0xFFFFFFFF 11 0) = some (0x24, none) := by decide

theorem test_jal_wraps_below_zero : idOutcome (.jal 1 (-12)) (inId 0xFF5FF0EF 8 0 0 0 0) = some (0xFFFFFFFC, none) := by
  decide

theorem test_jal_link : exResultOf (.jal 1 16) 8 0 0 = some 0xC := by decide

theorem test_j_to_itself : idOutcome (.j 0) (inId 0x0000006F 0x20 0 0 0 0) = some (0x20, none) := by decide

theorem test_j_link_dropped : (got (exec (.j 8) (inWb (.j 8) 0x24))).map (fun t => t.regs) = some State.reset.regs := by
  decide

theorem test_jalr_clears_bit_zero : idOutcome (.jalr 1 5 0) (inId 0x000280E7 0x30 5 0x15 0 0) = some (0x14, none) ∧
    exResultOf (.jalr 1 5 0) 0x30 0x15 0 = some 0x34 := by decide

theorem test_jalr_misaligned :
    faulted (exec (.jalr 1 5 0) (inId 0x000280E7 0x30 5 0x16 0 0)) = some (.misalignedTarget 0x16 0x30) := by decide

/-! ### The host's two functions -/

/-- The word placed for the fetch is the one the next step decodes and hands to EX. -/
theorem test_placed_word_runs_first :
    ((got (step (State.reset.withFetchWord 32 0x00500293))).bind fun t => t.idEx.content) =
      some ⟨.known (.addi 5 0 5) ⟨0x13, 0, 0⟩, 0, 0⟩ := by decide

/-- A taken jump placed as the first word redirects in the next step. -/
theorem test_placed_jump_runs_first :
    ((got (step (State.reset.withFetchWord 32 0x0080006F))).map fun t => t.pc) = some 8 := by decide

/-- An Unknown word is refused by the decoder and inert in the machine. -/
theorem test_unknown_word_is_inert :
    decodeTableWord 32 0x00100073 = none ∧
    ((got (step (State.reset.withFetchWord 32 0x00100073))).map fun t => (t.pc, t.regs)) =
      some (4, State.reset.regs) := by decide

/-! ### Witnesses: inputs that meet the hypotheses of the obligations, at the boundaries of their clauses -/

theorem witness_DecodeAfterEncode : (Instr.beq 1 2 (-4096)).WellFormed ∧ (Instr.jal 31 1048574).WellFormed ∧
    immFits21 (-1048576) = true := by decide

theorem witness_EncodeAfterDecode : ¬ IsUnknown (decode 0xFE029AE3#32) := by
  rintro ⟨raw, h⟩
  rw [show decode 0xFE029AE3#32 = .known (.bne 5 0 (-12)) ⟨0x63, 1, 0x7F⟩ by decide] at h
  cases h

theorem witness_CodecIsInjective : Is 0x00000033#32 (.add 0 0 0) ∧ (Instr.add 0 0 0).WellFormed ∧
    encode (.add 0 0 0) = some 0x00000033#32 := by
  unfold Is; decide

/-- `jal x0, 8` and `j 8` have one word (R108, R115, R116) and one decoded spelling; `jal ra, 8` keeps its own. -/
theorem witness_CodecIsInjective_spelling : encode (.jal 0 8) = some 0x0080006F#32 ∧ encode (.j 8) = some 0x0080006F#32 ∧
    (Instr.jal 0 8).asDecoded = (Instr.j 8).asDecoded ∧ (Instr.jal 1 8).asDecoded ≠ (Instr.j 8).asDecoded := by
  decide

theorem witness_DecodedIsWellFormed : Holds (decode 0x000000EF#32) (.jal 1 0) :=
  ⟨⟨0x6F, 0, 0⟩, by decide⟩

theorem witness_OpcodeKeysAreDisjoint : hasKey 0x0000006F#32 (keyOf .j) = true ∧ hasKey 0x000000EF#32 (keyOf .jal) = true := by
  decide

/-- One Unknown word for each clause (a) to (g), and the nearest known word. -/
theorem witness_UnknownWordsExactly :
    decode 0x00000032#32 = .unknown (rawOf 0x00000032#32) ∧ decode 0x40005033#32 = .unknown (rawOf 0x40005033#32) ∧
    decode 0x00007013#32 = .unknown (rawOf 0x00007013#32) ∧ decode 0x00001003#32 = .unknown (rawOf 0x00001003#32) ∧
    decode 0x00001067#32 = .unknown (rawOf 0x00001067#32) ∧ decode 0x00001023#32 = .unknown (rawOf 0x00001023#32) ∧
    decode 0x00006063#32 = .unknown (rawOf 0x00006063#32) ∧ decode 0x00005063#32 ≠ .unknown (rawOf 0x00005063#32) := by
  decide

/-- The clauses at the last value in range and the first outside. -/
theorem witness_EncodeRefusesOutOfRange :
    encode (.addi 1 2 2047) ≠ none ∧ encode (.addi 1 2 2048) = none ∧ encode (.sw 1 2 (-2048)) ≠ none ∧
    encode (.sw 1 2 (-2049)) = none ∧ encode (.beq 1 2 4094) ≠ none ∧ encode (.beq 1 2 4096) = none ∧
    encode (.bge 1 2 (-4098)) = none ∧ encode (.bge 1 2 1) = none ∧ encode (.j 1048574) ≠ none ∧
    encode (.jal 1 1048576) = none ∧ encode (.jal 1 (-1048578)) = none := by decide

/-- `j 0` by a label of its own line. -/
theorem witness_AssembledWordsRoundTrip :
    assembleText ['x', ':', 'j', ' ', 'x'] = .ok [0x0000006F#32] ∧ 0x0000006F#32 ∈ [0x0000006F#32] := by decide

theorem witness_AluBitwise : (31 : Nat) < 32 ∧ operate .nor 0 0 = .value 0xFFFFFFFF := by decide

theorem witness_AluDivRem : (0#32).toNat = 0 ∧ (1#32).toNat ≠ 0 := by decide

theorem witness_AluPortsReportZeroDivisor :
    (aluPorts .div 1 0).divByZero = true ∧ (aluPorts .add 1 0).divByZero = false ∧ (aluPorts .rem 7 2).result = 1 := by decide

/-- The clauses at the ends of their ranges: 0, 1, 31, 32. -/
theorem witness_RegisterFileReadWrite :
    registerRead (registerWrite State.reset.regs 1 (-1)) 1 = some 0xFFFFFFFF ∧
    registerRead (registerWrite State.reset.regs 31 7) 31 = some 7 ∧
    registerWrite State.reset.regs 0 7 = State.reset.regs ∧ registerWrite State.reset.regs 32 7 = State.reset.regs ∧
    registerRead State.reset.regs 32 = none := by decide

/-- The last word of 4096 bytes, and one byte further. -/
theorem witness_WordAccessLittleEndian : Memory.wf [] = true ∧ 4092 + 4 ≤ 4096 ∧ 4096 < 4093 + 4 ∧
    writeWord 4096 [] 4092 0xCAFEBABE = some [(4092, 0xBE), (4093, 0xBA), (4094, 0xFE), (4095, 0xCA)] := by decide

theorem witness_WordReadAfterWrite : Memory.wf [(4, 1)] = true ∧ 4 + 4 ≤ 8 ∧
    writeWord 4096 [(4, 1)] 8 0x100 = some [(4, 1), (9, 1)] := by decide

theorem witness_LoadImageAllOrNothing : Memory.wf [] = true ∧ 4093 + [1#8, 2#8, 3#8].length ≤ 4096 ∧
    4096 < 4093 + [1#8, 2#8, 3#8, 4#8].length ∧
    imageInto 4096 [] [1, 2, 3] 4093 = some [(4093, 1), (4094, 2), (4095, 3)] := by decide

theorem witness_CanonicalMemoryIsExtensional : Memory.wf [(4, 1)] = true ∧
    Memory.wf (Memory.set (Memory.set [] 5 0) 4 1) = true ∧ Memory.set (Memory.set [] 5 0) 4 1 = [(4, 1)] := by decide

/-! The hypotheses of the completion statements: an occupied slot in the stage, and the operands asked for. -/

/-- Every four-stage statement (RFormatComplete, DivRemComplete, AddiComplete, LwComplete, SwComplete, BranchesComplete,
JumpsComplete): ID, EX, MEM and WB of a known instruction. -/
theorem witness_completion_stages :
    (inId 0x006283B3 0 5 1 6 2).stage = .id ∧ (inId 0x006283B3 0 5 1 6 2).ifId.content = some 0x006283B3#32 ∧
    (inEx (.div 7 5 6) 0 7 2).stage = .ex ∧ (inEx (.div 7 5 6) 0 7 2).idEx.content ≠ none ∧ (2#32).toNat ≠ 0 ∧
    (inMem (.add 7 5 6) 0 3 2 []).stage = .mem ∧ (inMem (.add 7 5 6) 0 3 2 []).exMem.content ≠ none ∧
    (inWb (.add 7 5 6) 3).stage = .wb ∧ (inWb (.add 7 5 6) 3).memWb.content ≠ none := by decide

theorem witness_DivRemTrapOnZero : (inEx (.div 0 5 6) 0 7 0).stage = .ex ∧
    (inEx (.div 0 5 6) 0 7 0).idEx.content = some ⟨.known (.div 0 5 6) ⟨0, 0, 0⟩, 7, 0⟩ := by decide

theorem witness_LwComplete : (inMem (.lw 1 2 0) 0 4092 0 []).stage = .mem ∧
    readWord (inMem (.lw 1 2 0) 0 4092 0 []).dmemBytes [] (4092#32).toNat = some 0 := by decide

theorem witness_SwComplete : (inMem (.sw 1 2 0) 0 4092 1 []).stage = .mem ∧
    writeWord (inMem (.sw 1 2 0) 0 4092 1 []).dmemBytes [] (4092#32).toNat 1 = some [(4092, 1)] := by decide

theorem witness_LoadStoreTrapOutOfBounds : (inMem (.lw 1 2 0) 0 4093 0 []).stage = .mem ∧
    (inMem (.lw 1 2 0) 0 4093 0 []).dmemBytes < (4093#32).toNat + 4 ∧
    ¬ (inMem (.lw 1 2 0) 0 4092 0 []).dmemBytes < (4092#32).toNat + 4 := by decide

/-- The branch cases: taken and aligned, not taken. -/
theorem witness_BranchesComplete :
    sourceValue (inId 0x00628463 0x10 5 5 6 5) (some 5) = sourceValue (inId 0x00628463 0x10 5 5 6 5) (some 6) ∧
    (relative 8 0x10 0).toNat % 4 = 0 ∧
    sourceValue (inId 0x00628463 0x10 5 5 6 6) (some 5) ≠ sourceValue (inId 0x00628463 0x10 5 5 6 6) (some 6) := by decide

theorem witness_JumpsComplete : (relative (-12) 8 0).toNat = 0xFFFFFFFC ∧ (relative (-12) 8 0).toNat % 4 = 0 ∧
    (indirect 0 0x30 0x15).toNat = 0x14 ∧ (indirect 0 0x30 0x15).toNat % 4 = 0 := by decide

theorem witness_TransfersTrapMisaligned : (relative 2 0x10 0).toNat % 4 ≠ 0 ∧ (indirect 0 0x30 0x16).toNat % 4 ≠ 0 ∧
    (inId 0x00628163 0x10 5 1 6 1).stage = .id ∧ (inId 0x00628163 0x10 5 1 6 1).ifId.content = some 0x00628163#32 := by
  decide

/-- `add`, and `jalr` with an aligned target. -/
theorem witness_ArchitecturalResults :
    (inId 0x006283B3 0 5 1 6 2).ifId.content ≠ none ∧ (Instr.add 7 5 6).rd? = some 7 ∧
    resultOf (.add 7 5 6) 0 1 2 4096 [] = some 3 ∧ syncTaken (.add 7 5 6) 1 2 = false ∧
    resultOf (.jalr 1 5 0) 0x30 0x15 0 4096 [] = some 0x34 ∧ (syncTarget (.jalr 1 5 0) 0x30 0x15).toNat % 4 = 0 := by decide

theorem witness_ArchitecturalStore :
    (inId 0x00712023 0 2 0xFFC 7 8).ifId.content ≠ none ∧ Memory.wf (inId 0x00712023 0 2 0xFFC 7 8).mem = true ∧
    (BitVec.ofInt 32 ((readLane (inId 0x00712023 0 2 0xFFC 7 8).regs 2).toNat + 0) : Word).toNat + 4 ≤
      (inId 0x00712023 0 2 0xFFC 7 8).dmemBytes := by decide

/-- A next state in each of the four stages (RegisterFrame, MemoryFrame, PipelineFrame). -/
theorem witness_frames :
    (got (exec (.add 7 5 6) (inId 0x006283B3 0 5 1 6 2))).isSome = true ∧
    (got (exec (.add 7 5 6) (inEx (.add 7 5 6) 0 1 2))).isSome = true ∧
    (got (exec (.sw 1 2 0) (inMem (.sw 1 2 0) 0 4092 1 []))).isSome = true ∧
    (got (exec (.add 7 5 6) (inWb (.add 7 5 6) 3))).isSome = true := by decide

/-! Steps. -/

/-- A program just loaded. -/
def loaded (ws : List Word) : State := { State.reset with imem := ws }

theorem isKnown {w : Word} {i : Instr} (h : decode w = .known i (rawOf w)) : Is w i := h

/-- A known instruction in every slot: `sw` in MEM_WB, `lw` in EX_MEM, `add` in ID_EX, `addi t0, zero, 5` in IF_ID. -/
def full : State :=
  { State.reset with
    pc := 16
    ifId := ⟨12, some 0x00500293⟩
    idEx := ⟨8, some ⟨.known (.add 7 5 6) ⟨0x33, 0, 0⟩, 1, 2⟩⟩
    exMem := ⟨4, some ⟨.known (.lw 1 2 0) ⟨0x03, 2, 0⟩, 4092, 0⟩⟩
    memWb := ⟨0, some ⟨.known (.sw 1 2 0) ⟨0x23, 2, 0⟩, 0⟩⟩ }

theorem witness_StepRunsDecodedInstruction : full.fault = none ∧ full.ifId.content = some 0x00500293#32 ∧
    Is 0x00500293#32 (.addi 5 0 5) ∧ (got (olderStages full)).isSome = true ∧ (got (wbStage full)).isSome = true ∧
    ((got (wbStage full)).bind fun s => got (memStage s)).isSome = true := by
  unfold Is; decide

/-- A zero divisor in EX ends the older stages in a fault. -/
theorem witness_StepRunsDecodedInstruction_fault :
    olderStages { inEx (.div 7 5 6) 8 1 0 with stage := .id } = .fault (.divisionByZero 8) := rfl

theorem witness_StepIsSynchronousCycle : full.fault = none := rfl

theorem not_taken_of_bubble {s : State} (h : s.ifId.content = none) : ¬ ∃ target, Taken s target := by
  rintro ⟨_, _, _, hw, _⟩
  rw [h] at hw
  cases hw

/-- The first clause at the last word of the program, the second at the first address past it. -/
theorem witness_SequentialFetch :
    (∃ t, step (loaded [0x33]) = .next t) ∧ (¬ ∃ target, Taken (loaded [0x33]) target) ∧
    (loaded [0x33]).pc.toNat < 4 * (loaded [0x33]).imem.length ∧
    (∃ t, step { loaded [0x33] with pc := 4 } = .next t) ∧ (¬ ∃ target, Taken { loaded [0x33] with pc := 4 } target) ∧
    4 * [0x33#32].length ≤ (4#32).toNat :=
  ⟨⟨_, rfl⟩, not_taken_of_bubble rfl, by decide, ⟨_, rfl⟩, not_taken_of_bubble rfl, by decide⟩

theorem witness_TakenTransferFlushes :
    (∃ t, step (inId 0x00628463 0x10 5 5 6 5) = .next t) ∧ Taken (inId 0x00628463 0x10 5 5 6 5) 0x18 :=
  ⟨⟨_, rfl⟩, 0x00628463, .beq 5 6 8, rfl, isKnown (by decide), by decide, by decide⟩

theorem witness_RegistersWrittenInWbOnly :
    (∃ t, step { inWb (.jal 1 8) 4 with stage := .id } = .next t) ∧
    (inWb (.jal 1 8) 4).memWb.content = some ⟨.known (.jal 1 8) ⟨0, 0, 0⟩, 4⟩ ∧
    (Instr.jal 1 8).format ∈ [Format.r, .i, .j] ∧ (Instr.jal 1 8).rd? = some 1 ∧ (Instr.jal 1 8).rd? ≠ some 2 :=
  ⟨⟨_, rfl⟩, rfl, by decide, by decide, by decide⟩

theorem witness_IdReadsAfterWb : (∃ t, step full = .next t) ∧ full.ifId.content = some 0x00500293#32 ∧
    Is 0x00500293#32 (.addi 5 0 5) :=
  ⟨⟨_, rfl⟩, rfl, isKnown (by decide)⟩

/-- A store in MEM in the first clause, a load in the second. -/
theorem witness_MemoryWrittenBySwOnly :
    (∃ t, step { inMem (.sw 1 2 0) 0 4092 1 [] with stage := .id } = .next t) ∧
    Holds (.known (.sw 1 2 0) ⟨0, 0, 0⟩) (.sw 1 2 0) ∧ (∃ t, step full = .next t) ∧
    full.exMem.content = some ⟨.known (.lw 1 2 0) ⟨0x03, 2, 0⟩, 4092, 0⟩ :=
  ⟨⟨_, rfl⟩, ⟨_, rfl⟩, ⟨_, rfl⟩, rfl⟩

theorem witness_BubblesAreInert : (∃ t, step State.reset = .next t) ∧ State.reset.ifId.content = none ∧
    State.reset.idEx.content = none ∧ State.reset.exMem.content = none ∧ State.reset.memWb.content = none :=
  ⟨⟨_, rfl⟩, rfl, rfl, rfl, rfl⟩

/-- An Unknown in every slot. -/
def unknowns : State :=
  { State.reset with
    ifId := ⟨12, some 0x00100073⟩
    idEx := ⟨8, some ⟨.unknown ⟨0, 0, 0⟩, 0, 0⟩⟩
    exMem := ⟨4, some ⟨.unknown ⟨0, 0, 0⟩, 0, 0⟩⟩
    memWb := ⟨0, some ⟨.unknown ⟨0, 0, 0⟩, 0⟩⟩ }

theorem witness_UnknownIsInert : (∃ t, step unknowns = .next t) ∧ IsUnknown (decode 0x00100073#32) ∧
    IsUnknown (.unknown ⟨0, 0, 0⟩) :=
  ⟨⟨_, rfl⟩, ⟨⟨0x73, 0, 0⟩, by decide⟩, ⟨_, rfl⟩⟩

theorem witness_StepKeepsProgramAndCounts : ∃ t, step full = .next t := ⟨_, rfl⟩

/-- The three causes, and MEM before EX where both raise. -/
theorem witness_FaultCausesAndPriority :
    step { inMem (.lw 1 2 0) 8 4093 0 [] with stage := .id } = .fault (.addressError .load 4093 8) ∧
    step { inEx (.rem 1 2 3) 4 7 0 with stage := .id } = .fault (.divisionByZero 4) ∧
    step (inId 0x00628163 0x10 5 1 6 1) = .fault (.misalignedTarget 0x12 0x10) ∧
    step { inEx (.rem 1 2 3) 4 7 0 with stage := .id, exMem := (inMem (.sw 1 2 0) 0 4093 0 []).exMem } =
      .fault (.addressError .store 4093 0) :=
  ⟨rfl, rfl, rfl, rfl⟩

theorem witness_FaultLatchIsTerminal :
    (∃ f, step { inEx (.rem 1 2 3) 4 7 0 with stage := .id } = .fault f) ∧ (∃ t, step full = .next t) :=
  ⟨⟨_, rfl⟩, ⟨_, rfl⟩⟩

theorem witness_LoadResets : [0x33#32].length < 2 ^ 30 ∧ 2 ^ 30 ≤ (List.replicate (2 ^ 30) 0#32).length :=
  ⟨by decide, by rw [List.length_replicate]⟩

theorem witness_ResetAndLoadInvariant : 1 ≤ full.dmemBytes ∧ full.dmemBytes ≤ 2 ^ 32 ∧ ∃ t, load full [0x33] = .ok t :=
  ⟨by decide, by decide, _, rfl⟩

/-- The program `add x0, x0, x0` in its ID cycle meets the invariant. -/
theorem witness_StepKeepsInvariant :
    Machine.Inv { loaded [0x33] with pc := 4, ifId := ⟨0, some 0x33⟩ } ∧
    ∃ t, step { loaded [0x33] with pc := 4, ifId := ⟨0, some 0x33⟩ } = .next t := by
  refine ⟨⟨by decide, by decide, by decide, by decide, by decide, by decide, ?_, rfl, ?_, ?_, ?_, ?_⟩, _, rfl⟩
  · intro a ha; cases ha
  · intro w hw; cases hw; decide
  · intro c hc; cases hc
  · intro c hc; cases hc
  · intro c hc; cases hc

/-- A loaded program meets the invariant and takes no transfer in its first cycle. -/
theorem witness_PcNeverWraps :
    Machine.Inv (loaded [0x33]) ∧ (∃ t, step (loaded [0x33]) = .next t) ∧ ¬ ∃ target, Taken (loaded [0x33]) target := by
  refine ⟨⟨by decide, by decide, by decide, by decide, by decide, by decide, ?_, rfl, ?_, ?_, ?_, ?_⟩, ⟨_, rfl⟩,
    not_taken_of_bubble rfl⟩
  · intro a ha; cases ha
  · intro w hw; cases hw
  · intro c hc; cases hc
  · intro c hc; cases hc
  · intro c hc; cases hc

/-- The link clause in a cycle that faults: `rem zero, zero, zero`, the last word of its program, in ID_EX. -/
def remInEx : State :=
  { loaded [0x02006033] with pc := 4, idEx := ⟨0, some ⟨decode 0x02006033, 0, 0⟩⟩ }

theorem witness_PcNeverWraps_link :
    Machine.Inv remInEx ∧ remInEx.idEx.content = some ⟨decode 0x02006033, 0, 0⟩ ∧
    step remInEx = .fault (.divisionByZero 0) := by
  refine ⟨⟨by decide, by decide, by decide, by decide, by decide, by decide, ?_, rfl, ?_, ?_, ?_, ?_⟩, rfl, rfl⟩
  · intro a ha; cases ha
  · intro w hw; cases hw
  · intro c hc; cases hc; exact ⟨0x02006033, by decide, rfl⟩
  · intro c hc; cases hc
  · intro c hc; cases hc

theorem witness_DrainedStaysDrained : ∃ t, step State.reset = .next t ∧ drained t = true := ⟨_, rfl, rfl⟩

/-- The three ends of a run: drained, faulted, at the cap. -/
theorem witness_RunEndsAsStated :
    (∃ t, run State.reset 1000 = .finished t) ∧
    (∃ f t, run { inEx (.rem 1 2 3) 4 7 0 with stage := .id } 1000 = .faulted f t) ∧
    (∃ t, run (loaded [0x33]) 0 = .cycleLimit t) :=
  ⟨⟨_, rfl⟩, ⟨_, _, rfl⟩, ⟨_, rfl⟩⟩

/-- `addi t0, zero, 5` in ID, and the four cycles that carry it to `t0`. -/
theorem witness_ResultReachesRegisterInWb : ∃ s1 s2 s3 s4,
    step { loaded [] with ifId := ⟨0, some 0x00500293⟩ } = .next s1 ∧ step s1 = .next s2 ∧ step s2 = .next s3 ∧
    step s3 = .next s4 ∧ Is 0x00500293#32 (.addi 5 0 5) ∧ (Instr.addi 5 0 5).rd? = some 5 ∧
    resultOf (.addi 5 0 5) 0 (sourceValue s1 (some 0)) (sourceValue s1 none) s2.dmemBytes s2.mem = some 5 :=
  ⟨_, _, _, _, rfl, rfl, rfl, rfl, isKnown (by decide), rfl, by decide⟩

/-- Two machines that differ in ID_EX and memory only. -/
theorem witness_NoForwarding :
    (∃ t, step (loaded [0x33]) = .next t) ∧
    ∃ t, step { inEx (.add 7 5 6) 0 1 2 with stage := .id, imem := [0x33], mem := [(0, 1)] } = .next t :=
  ⟨⟨_, rfl⟩, ⟨_, rfl⟩⟩

/-- `sw` to the last word in MEM, `lw` from it in EX. -/
theorem witness_LoadSeesPrecedingStore : ∃ t u,
    step { inMem (.sw 1 2 0) 0 4092 9 [] with
      stage := .id, idEx := ⟨4, some ⟨.known (.lw 3 1 (-4)) ⟨0, 0, 0⟩, 4096, 0⟩⟩ } = .next t ∧ step t = .next u ∧
    (4096 : Word) + u32 (-4) = 4092 :=
  ⟨_, _, rfl, rfl, by decide⟩

/-- One word, `addi t0, zero, 5`: no transfer, and no fault in its five cycles. -/
theorem witness_StraightLineDrainsInNPlusFour : [0x00500293#32] ≠ [] ∧ isTransfer (decode 0x00500293#32) = false ∧
    (∃ t, load State.reset [0x00500293#32] = .ok t) ∧ (∃ u, core.run 5 (loaded [0x00500293]) = .next u) ∧
    ∃ u, core.run 4 (loaded [0x00500293]) = .next u :=
  ⟨by decide, by decide, ⟨_, rfl⟩, ⟨_, rfl⟩, ⟨_, rfl⟩⟩

end Sys2Proof.Tests
end

section
/-! PROOFS. The register file, reset and load, the frames of an instruction, and the invariant every step keeps. The key
lemma is `step_effect`, which says once what a step does to each field of the state; the statements about a step are
read off it. -/

namespace Sys2Proof.Machine

open Sys2Proof.Claims

/-! ### The register file -/

@[simp] theorem readLane_zero (regs : Vector Word 32) : readLane regs 0#5 = 0#32 := rfl

@[simp] theorem writeLane_zero (regs : Vector Word 32) (v : Word) : writeLane regs 0#5 v = regs := rfl

/-- A lane read after a write: the value written, where it is that lane and not lane 0 (R22, R23). -/
theorem readLane_writeLane (regs : Vector Word 32) (k r : RegIdx) (v : Word) :
    readLane (writeLane regs r v) k = if k = r ∧ k ≠ 0#5 then v else readLane regs k := by
  by_cases hk : k = 0#5
  · simp [hk]
  · by_cases hr : r = 0#5
    · simp [hr, hk]
    · have hlane : r.toNat = k.toNat ↔ k = r := by rw [BitVec.toNat_inj, eq_comm]
      simp [readLane, writeLane, hk, hr, Vector.getElem_set, hlane]

/-- A write leaves what lane 0 holds (R23, R24). -/
theorem writeLane_lane_zero (regs : Vector Word 32) (r : RegIdx) (v : Word) : (writeLane regs r v)[0] = regs[0] := by
  unfold writeLane
  split
  · rfl
  · rename_i hr
    have hne : r.toNat ≠ 0 := fun h => hr (BitVec.eq_of_toNat_eq h)
    simp [hne]

/-- Indices below 32 name one lane only where they are equal. -/
theorem ofNat_lane_inj {k index : Nat} (hk : k < 32) (hi : index < 32) :
    BitVec.ofNat 5 k = BitVec.ofNat 5 index ↔ k = index := by
  rw [← BitVec.toNat_inj, BitVec.toNat_ofNat, BitVec.toNat_ofNat, Nat.mod_eq_of_lt hk, Nat.mod_eq_of_lt hi]

theorem registerRead_registerWrite_same (regs : Vector Word 32) {index : Nat} (h0 : 0 < index) (h : index < 32)
    (value : Int) : registerRead (registerWrite regs index value) index = some (u32 value) := by
  have hne : BitVec.ofNat 5 index ≠ 0#5 := fun he => by
    have := (ofNat_lane_inj h (by omega)).1 he
    omega
  simp [registerRead, registerWrite, h, readLane_writeLane, hne]

theorem registerRead_registerWrite_of_ne (regs : Vector Word 32) {index k : Nat} (hne : k ≠ index) (value : Int) :
    registerRead (registerWrite regs index value) k = registerRead regs k := by
  unfold registerRead registerWrite
  split
  · split
    · have hlane : BitVec.ofNat 5 k ≠ BitVec.ofNat 5 index := fun he => hne ((ofNat_lane_inj ‹_› ‹_›).1 he)
      simp [readLane_writeLane, hlane]
    · rfl
  · rfl

theorem registerWrite_of_no_lane (regs : Vector Word 32) {index : Nat} (h : index = 0 ∨ 32 ≤ index) (value : Int) :
    registerWrite regs index value = regs := by
  rcases h with rfl | h
  · rfl
  · simp [registerWrite, h.not_gt]

/-- Settles O16, by whether the index names a lane other than 0. -/
theorem registerFileReadWrite : Obligations.RegisterFileReadWrite := by
  intro regs index value
  exact ⟨fun h0 h => registerRead_registerWrite_same regs h0 h value,
    fun _ hk => registerRead_registerWrite_of_ne regs hk value,
    fun h => registerWrite_of_no_lane regs h value, rfl, fun h => if_neg h.not_gt⟩

/-! ### Reset and load -/

/-- Settles O49: every field of the reset state is a literal, and each lane is one of 32 zeros. -/
theorem resetState : Obligations.ResetState := by
  refine ⟨rfl, rfl, rfl, rfl, rfl, fun k => ?_, fun _ => rfl, rfl, rfl, rfl, rfl⟩
  simp [readLane, State.reset]

/-- A machine as `load` leaves it meets the invariant: its pipeline, memory and list of noted stores are empty. -/
theorem inv_of_reset {capacity : Nat} {words : List Word} (h1 : 1 ≤ capacity) (h2 : capacity ≤ Config.maxDmemBytes)
    (hw : words.length < Config.programWordsBound) :
    Machine.Inv { State.reset with dmemBytes := capacity, imem := words } where
  pcAligned := rfl
  programBound := hw
  capacity := ⟨h1, h2⟩
  memoryWf := reset_mem_wf
  memoryWithin := rfl
  laneZero := by simp [State.reset]
  touchedAligned := fun a ha => absurd ha List.not_mem_nil
  stageRests := rfl
  ifIdFetched := nofun
  idExDecoded := nofun
  exMemDecoded := nofun
  memWbDecoded := nofun

theorem load_ok {s t : State} {words : List Word} (h : load s words = .ok t) :
    words.length < Config.programWordsBound ∧ t = { State.reset with dmemBytes := s.dmemBytes, imem := words } := by
  unfold load at h
  split at h <;> cases h
  exact ⟨‹_›, rfl⟩

/-- Settles O51: the reset state and every loaded one are reset states with a capacity and a program. -/
theorem resetAndLoadInvariant : Obligations.ResetAndLoadInvariant := by
  refine ⟨inv_of_reset (by decide) (by decide) (by decide), fun s t words h1 h2 h => ?_⟩
  obtain ⟨hw, rfl⟩ := load_ok h
  exact inv_of_reset h1 h2 hw

/-! ### An instruction in WB, MEM and ID: which shared operation it is -/

/-- In WB an instruction writes back exactly where its record has a destination, in the formats R, I and J (R223, R224). -/
theorem exec_wb_cases (i : Instr) {s : State} (hs : s.stage = .wb) :
    (∃ rd, i.rd? = some rd ∧ (i.format == .r || i.format == .i || i.format == .j) = true ∧
      exec i s = writeBack rd s) ∨
    (i.rd? = none ∧ (i.format == .r || i.format == .i || i.format == .j) = false ∧ exec i s = noWriteBack s) := by
  cases s; cases hs
  cases i with
  | sw | beq | bne | blt | bge => exact .inr ⟨rfl, rfl, rfl⟩
  | _ => exact .inl ⟨_, rfl, rfl, rfl⟩

/-- In MEM an instruction passes its result on, but for `lw` and `sw` (R227 to R229). -/
theorem exec_mem_cases (i : Instr) {s : State} (hs : s.stage = .mem) :
    exec i s = memPass s ∨ (i.mnemonic = .lw ∧ exec i s = memLoad s) ∨ (i.mnemonic = .sw ∧ exec i s = memStore s) := by
  cases s; cases hs
  cases i with
  | lw rd rs1 imm => exact .inr (.inl ⟨rfl, rfl⟩)
  | sw rs1 rs2 imm => exact .inr (.inr ⟨rfl, rfl⟩)
  | _ => exact .inl rfl

/-- ID of an instruction that is no control transfer is ID of a transfer never taken. -/
theorem idTransfer_never (a b : Option RegIdx) (target : Word → Word → Word) (s : State) :
    idTransfer a b (fun _ _ => false) target s = idPlain a b s := by
  unfold idTransfer idPlain
  split <;> rfl

/-- In ID every instruction reads the sources of its record and takes the transfer of R240. -/
theorem exec_id_eq (i : Instr) {s : State} (hs : s.stage = .id) :
    exec i s = idTransfer i.rs1? i.rs2? (syncTaken i) (syncTarget i) s := by
  have hbne : takenBne = fun a b => a != b := by funext a b; simp [takenBne, bne, Bool.beq_eq_decide_eq]
  cases s; cases hs
  cases i with
  | beq | blt | bge | jal | j | jalr => rfl
  | bne => simp only [exec, execBne, execBranch, hbne]; rfl
  | _ => exact (idTransfer_never _ _ _ _).symm

/-! ### The frame of an instruction in each stage -/

theorem fetch_frame (s : State) : fetch s = { s with pc := (fetch s).pc, ifId := (fetch s).ifId } := by
  rcases fetch_cases s with ⟨w, _, hf⟩ | ⟨_, hf⟩ <;> rw [hf]

/-- WB changes registers only. -/
theorem exec_wb_frame {i : Instr} {s t : State} (hs : s.stage = .wb) (h : exec i s = .next t) :
    t = { s with regs := t.regs } := by
  rcases exec_wb_next hs h with rfl | ⟨rd, c, _, _, rfl⟩ <;> rfl

/-- MEM changes MEM_WB, the memory and the noted stores only. -/
theorem exec_mem_frame {i : Instr} {s t : State} (hs : s.stage = .mem) (h : exec i s = .next t) :
    t = { s with memWb := t.memWb, mem := t.mem, touched := t.touched } := by
  rcases exec_mem_next hs h with ht | ⟨c, _, _, _, rfl⟩
  · rw [ht]
  · rfl

/-- EX changes EX_MEM only. -/
theorem exec_ex_frame {i : Instr} {s t : State} (hs : s.stage = .ex) (h : exec i s = .next t) :
    t = { s with exMem := t.exMem } := by
  rcases exec_ex_next hs h with ⟨_, rfl⟩ | ⟨c, r, _, rfl⟩ <;> rfl

/-- ID, with IF, changes `pc`, IF_ID and ID_EX only. -/
theorem exec_id_frame {i : Instr} {s t : State} (hs : s.stage = .id) (h : exec i s = .next t) :
    t = { s with pc := t.pc, ifId := t.ifId, idEx := t.idEx } := by
  rcases exec_id_next hs h with rfl | ⟨target, _, _, rfl⟩
  · rw [fetch_frame]; simp
  · simp [redirect]

/-- Outside WB no instruction changes a register (R26). -/
theorem exec_regs_of_not_wb {i : Instr} {s t : State} (hs : s.stage ≠ .wb) (h : exec i s = .next t) :
    t.regs = s.regs := by
  cases hst : s.stage with
  | wb => exact absurd hst hs
  | mem => rw [exec_mem_frame hst h]
  | ex => rw [exec_ex_frame hst h]
  | id => rw [exec_id_frame hst h]

/-- In every stage a lane that is not the instruction's `rd` keeps its value (R26, R223, R224). -/
theorem exec_keeps_other_lanes {i : Instr} {s t : State} (h : exec i s = .next t) {k : RegIdx} (hk : i.rd? ≠ some k) :
    readLane t.regs k = readLane s.regs k := by
  by_cases hs : s.stage = .wb
  · rcases exec_wb_next hs h with rfl | ⟨rd, c, hrd, _, rfl⟩
    · rfl
    · have hne : k ≠ rd := fun he => hk (he ▸ hrd)
      simp [readLane_writeLane, hne]
  · rw [exec_regs_of_not_wb hs h]

/-- Settles O33, by the frame of the stage the instruction is in. -/
theorem registerFrame : Obligations.RegisterFrame := fun _ _ _ h =>
  ⟨fun hs => exec_regs_of_not_wb hs h, fun _ hk => exec_keeps_other_lanes h hk, readLane_zero _⟩

/-- Settles O35, by the frame of each stage. -/
theorem pipelineFrame : Obligations.PipelineFrame := by
  intro i s t h
  cases hs : s.stage with
  | wb => rw [exec_wb_frame hs h]; simp [hs]
  | mem => rw [exec_mem_frame hs h]; simp [hs]
  | ex => rw [exec_ex_frame hs h]; simp [hs]
  | id => rw [exec_id_frame hs h]; simp [hs]

/-! ### What a step does to the instructions in flight -/

/-- The slot `b` holds what `a` held a stage earlier: the same address and the same record, or a bubble for a bubble. -/
def Carries {α β : Type} (recordOfA : α → Decoded) (recordOfB : β → Decoded) (a : Slot α) (b : Slot β) : Prop :=
  b.pc = a.pc ∧ b.content.map recordOfB = a.content.map recordOfA

/-- A bubble is carried on as the bubble with its address (R39). -/
theorem Carries.of_bubble {α β : Type} {f : α → Decoded} {g : β → Decoded} {a : Slot α} {b : Slot β}
    (h : Carries f g a b) (ha : a.content = none) : b = ⟨a.pc, none⟩ := by
  obtain ⟨pc, content⟩ := b
  obtain ⟨hpc, hrec⟩ := h
  rw [ha, Option.map_none, Option.map_eq_none_iff] at hrec
  rw [← hpc, ← hrec]

/-- A record of the program stays one when it is carried on. -/
theorem Carries.fromProgram {α β : Type} {f : α → Decoded} {g : β → Decoded} {a : Slot α} {b : Slot β}
    (h : Carries f g a b) {imem : List Word} (ha : ∀ c, a.content = some c → Machine.fromProgram imem a.pc (f c)) :
    ∀ c, b.content = some c → Machine.fromProgram imem b.pc (g c) := by
  intro c hc
  obtain ⟨hpc, hrec⟩ := h
  rw [hc, Option.map_some, eq_comm, Option.map_eq_some_iff] at hrec
  obtain ⟨d, hd, hdc⟩ := hrec
  rw [hpc, ← hdc]
  exact ha d hd

/-- The write port of R223 where MEM_WB holds a known instruction. -/
theorem writePort_of_known {s : State} {c : MemWbData} {i : Instr} {raw : Raw} (hc : s.memWb.content = some c)
    (hr : c.instr = .known i raw) :
    rfWe s = (i.format == .r || i.format == .i || i.format == .j) ∧ rfWaddr s = i.rd?.getD 0 ∧ rfWdata s = c.result := by
  refine ⟨?_, ?_, ?_⟩
  · simp only [rfWe, hc, hr, knownInstr]
  · simp only [rfWaddr, hc, hr, knownInstr, Option.bind_some]
  · simp only [rfWdata, hc]

/-- The register file after WB: the write port of R223. -/
theorem wbStage_regs {s t : State} (h : wbStage s = .next t) :
    t.regs = if rfWe s then writeLane s.regs (rfWaddr s) (rfWdata s) else s.regs := by
  unfold wbStage at h
  split at h
  · rename_i hc
    cases h
    simp [rfWe, hc]
  · rename_i c hc
    split at h
    · rename_i raw hr
      cases h
      simp [rfWe, hc, hr, knownInstr]
    · rename_i i raw hr
      obtain ⟨hwe, hwaddr, hwdata⟩ := writePort_of_known hc hr
      rcases exec_wb_cases i (s := atStage .wb s) rfl with ⟨rd, hrd, hf, he⟩ | ⟨_, hf, he⟩ <;> rw [he] at h
      · have hw : writeBack rd (atStage .wb s) = .next { atStage .wb s with regs := writeLane s.regs rd c.result } := by
          simp [writeBack, hc]
        cases hw.symm.trans h
        simp [hwe, hwaddr, hwdata, hf, hrd]
      · cases h
        simp [hwe, hf]

/-- R239: what a register reads after WB is what `rf_read` reads before it. -/
theorem readLane_wbStage {s t : State} (h : wbStage s = .next t) (r : RegIdx) : readLane t.regs r = rfRead s r := by
  rw [wbStage_regs h, rfRead]
  by_cases hr : r = 0#5
  · simp [hr]
  · cases hwe : rfWe s <;> simp [hr, readLane_writeLane]

/-- MEM is one of the three operations, on the state in some stage. -/
theorem memStage_cases (s : State) : ∃ st, memStage s = memPass (atStage st s) ∨
    memStage s = memLoad (atStage st s) ∨ memStage s = memStore (atStage st s) := by
  unfold memStage
  split
  · exact ⟨s.stage, .inl rfl⟩
  · split
    · exact ⟨s.stage, .inl rfl⟩
    · exact ⟨.mem, (exec_mem_cases _ rfl).imp_right (Or.imp And.right And.right)⟩

theorem memStage_carries {s t : State} (h : memStage s = .next t) :
    Carries ExMemData.instr MemWbData.instr s.exMem t.memWb := by
  obtain ⟨st, he | he | he⟩ := memStage_cases s <;> rw [he] at h
  · rcases memPass_next h with ⟨hc, rfl⟩ | ⟨c, hc, rfl⟩ <;> rw [atStage_exMem] at hc <;> simp [Carries, hc]
  · rcases memLoad_next h with ⟨hc, rfl⟩ | ⟨c, hc, _, rfl⟩ <;> rw [atStage_exMem] at hc <;> simp [Carries, hc]
  · rcases memStore_next h with ⟨hc, rfl⟩ | ⟨c, hc, _, rfl⟩ <;> rw [atStage_exMem] at hc <;> simp [Carries, hc]

/-- The data memory and the noted addresses are left alone, or a word is stored in bounds (R226 to R229). -/
def StoresAtMost (s t : State) : Prop :=
  (t.mem = s.mem ∧ t.touched = s.touched) ∨
  ∃ c, s.exMem.content = some c ∧ c.aluResult.toNat + 4 ≤ s.dmemBytes ∧
    t.mem = setWord s.mem c.aluResult.toNat c.rs2Val ∧ t.touched = noteStore s.touched c.aluResult.toNat

theorem memStage_stores {s t : State} (h : memStage s = .next t) : StoresAtMost s t := by
  obtain ⟨st, he | he | he⟩ := memStage_cases s <;> rw [he] at h
  · rw [memPass_frame h]; exact .inl ⟨rfl, rfl⟩
  · rw [memLoad_frame h]; exact .inl ⟨rfl, rfl⟩
  · rcases memStore_next h with ⟨_, rfl⟩ | ⟨c, hc, hb, rfl⟩
    · exact .inl ⟨rfl, rfl⟩
    · exact .inr ⟨c, hc, hb, rfl, rfl⟩

theorem exZero_carries {s t : State} (h : exZero s = .next t) :
    Carries IdExData.instr ExMemData.instr s.idEx t.exMem := by
  rcases exZero_next h with ⟨hc, rfl⟩ | ⟨c, hc, rfl⟩ <;> simp [Carries, hc]

theorem exStage_carries {s t : State} (h : exStage s = .next t) :
    Carries IdExData.instr ExMemData.instr s.idEx t.exMem := by
  unfold exStage at h
  split at h
  · exact exZero_carries h
  · split at h
    · exact exZero_carries h
    · rcases exec_ex_next rfl h with ⟨hc, rfl⟩ | ⟨c, r, hc, rfl⟩ <;> rw [atStage_idEx] at hc <;> simp [Carries, hc]

theorem issue_carries (a b : Option RegIdx) (s : State) :
    Carries decode IdExData.instr s.ifId (issue a b s).idEx := by
  unfold issue
  split <;> rename_i hc <;> simp [Carries, hc]

/-- A word that decodes to a known instruction carries its own raw fields (R106). -/
theorem is_of_decode {w : Word} {i : Instr} {raw : Raw} (h : decode w = .known i raw) : Is w i := by
  unfold Is decode at *
  split at h <;> cases h
  rfl

theorem is_unique {w : Word} {i i' : Instr} (h : Is w i) (h' : Is w i') : i = i' := by
  rw [Is, h] at h'
  cases h'
  rfl

/-- The word in IF_ID takes a transfer to `target`, decided on the register file of `s` (R240). -/
def TakesIn (s : State) (target : Word) : Prop :=
  ∃ w i, s.ifId.content = some w ∧ Is w i ∧ syncTaken i (sourceValue s i.rs1?) (sourceValue s i.rs2?) = true ∧
    target = syncTarget i s.ifId.pc (sourceValue s i.rs1?)

theorem takesIn_of_known {s : State} {w : Word} {i : Instr} (hc : s.ifId.content = some w) (hi : Is w i)
    {target : Word} : TakesIn s target ↔ syncTaken i (sourceValue s i.rs1?) (sourceValue s i.rs2?) = true ∧
      target = syncTarget i s.ifId.pc (sourceValue s i.rs1?) := by
  refine ⟨?_, fun h => ⟨w, i, hc, hi, h⟩⟩
  rintro ⟨w', i', hc', hi', h⟩
  cases hc.symm.trans hc'
  cases is_unique hi hi'
  exact h

/-- A bubble and an Unknown take no transfer (R236, R237). -/
theorem not_takesIn_of_not_known {s : State} (h : ∀ w i, s.ifId.content = some w → ¬ Is w i) (target : Word) :
    ¬ TakesIn s target := by
  rintro ⟨w, i, hc, hi, -⟩
  exact h w i hc hi

/-- ID issues the word in IF_ID to EX; then IF fetches, where that word takes no transfer, or `pc` is redirected to the
aligned target of the transfer it takes (R237 to R246). -/
theorem idStage_next {s t : State} (h : idStage s = .next t) : ∃ a b st,
    ((∀ target, ¬ TakesIn s target) ∧ t = fetch (issue a b (atStage st s))) ∨
    ∃ target, TakesIn s target ∧ target.toNat % 4 = 0 ∧ t = redirect (issue a b (atStage st s)) target := by
  unfold idStage at h
  split at h
  · rename_i hc
    refine ⟨none, none, s.stage, .inl ⟨not_takesIn_of_not_known ?_, idPlain_next h⟩⟩
    simp [hc]
  · rename_i w hc
    split at h
    · rename_i raw hd
      refine ⟨none, none, s.stage, .inl ⟨not_takesIn_of_not_known ?_, idPlain_next h⟩⟩
      intro w' i hw hi
      cases hc.symm.trans hw
      cases hd.symm.trans hi
    · rename_i i raw hd
      rw [exec_id_eq i rfl] at h
      simp only [takesIn_of_known hc (is_of_decode hd)]
      refine ⟨i.rs1?, i.rs2?, .id, (idTransfer_next h).imp ?_ ?_⟩
      · rintro ⟨hn | hnt, ht⟩
        · rw [atStage_ifId, hc] at hn; cases hn
        · exact ⟨fun _ htk => Bool.false_ne_true (hnt.symm.trans htk.1), ht⟩
      · rintro ⟨-, htk, hal, ht⟩
        exact ⟨_, ⟨htk, rfl⟩, hal, ht⟩

/-! ### What a step can do -/

theorem sourceValue_eq_syncOperand {s s' : State} (h : ∀ r, readLane s'.regs r = rfRead s r) (r : Option RegIdx) :
    sourceValue s' r = syncOperand s r := by
  cases r with
  | none => rfl
  | some r => exact h r

/-- On the state after the older stages the transfer of ID is the one `Taken` speaks of (R239). -/
theorem takesIn_iff_taken {s s' : State} (hregs : ∀ r, readLane s'.regs r = rfRead s r) (hif : s'.ifId = s.ifId)
    (target : Word) : TakesIn s' target ↔ Taken s target := by
  simp only [TakesIn, Taken, sourceValue_eq_syncOperand hregs, hif]

/-- What the older stages leave to ID: registers, memory, EX_MEM and MEM_WB are all they replace. -/
theorem olderStages_frame {s s1 s2 s3 : State} (h1 : wbStage s = .next s1) (h2 : memStage s1 = .next s2)
    (h3 : exStage s2 = .next s3) :
    s3 = { s with regs := s1.regs, memWb := s2.memWb, mem := s2.mem, touched := s2.touched, exMem := s3.exMem,
                  stage := s3.stage } := by
  rw [exStage_next h3, memStage_next h2, wbStage_next h1]

theorem idStage_frame {s t : State} (h : idStage s = .next t) :
    t = { s with pc := t.pc, ifId := t.ifId, idEx := t.idEx, stage := t.stage } := by
  obtain ⟨a, b, st, ⟨_, rfl⟩ | ⟨target, _, _, rfl⟩⟩ := idStage_next h
  · rw [fetch_frame]; simp
  · simp [redirect]

/-- IF looks at `pc` and the program only. -/
theorem fetch_congr {s s' : State} (hpc : s'.pc = s.pc) (himem : s'.imem = s.imem) :
    (fetch s').pc = (fetch s).pc ∧ (fetch s').ifId = (fetch s).ifId := by
  unfold fetch
  rw [hpc, himem]
  split <;> exact ⟨rfl, rfl⟩

theorem idStage_carries {s t : State} (h : idStage s = .next t) :
    Carries decode IdExData.instr s.ifId t.idEx := by
  obtain ⟨a, b, st, ⟨_, rfl⟩ | ⟨target, _, _, rfl⟩⟩ := idStage_next h
  · rw [fetch_idEx]; exact issue_carries a b (atStage st s)
  · exact issue_carries a b (atStage st s)

/-- `pc` and IF_ID after ID: those of IF, or those of the taken transfer's redirection (R243 to R246). -/
theorem idStage_control {s t : State} (h : idStage s = .next t) :
    ((∀ target, ¬ TakesIn s target) ∧ t.pc = (fetch s).pc ∧ t.ifId = (fetch s).ifId) ∨
    ∃ target, TakesIn s target ∧ target.toNat % 4 = 0 ∧ t.pc = target ∧ t.ifId = bubble target := by
  obtain ⟨a, b, st, ⟨hnt, rfl⟩ | ⟨target, htk, hal, rfl⟩⟩ := idStage_next h
  · exact .inl ⟨hnt, fetch_congr (issue_pc a b (atStage st s)) (issue_imem a b (atStage st s))⟩
  · exact .inr ⟨target, htk, hal, rfl, rfl⟩

/-- What a step that answers a next state has done, field by field, in terms of the state it began in (R222, R247). -/
structure StepEffect (s t : State) : Prop where
  latchClear : s.fault = none
  /-- The write port of WB (R223). -/
  regs : t.regs = if rfWe s then writeLane s.regs (rfWaddr s) (rfWdata s) else s.regs
  memWb : Carries ExMemData.instr MemWbData.instr s.exMem t.memWb
  memory : StoresAtMost s t
  exMem : Carries IdExData.instr ExMemData.instr s.idEx t.exMem
  idEx : Carries decode IdExData.instr s.ifId t.idEx
  /-- IF fetches, or a taken transfer redirects `pc` to an aligned target and flushes the fetch (R243 to R246). -/
  control : ((¬ ∃ target, Taken s target) ∧ t.pc = (fetch s).pc ∧ t.ifId = (fetch s).ifId) ∨
    ∃ target, Taken s target ∧ target.toNat % 4 = 0 ∧ t.pc = target ∧ t.ifId = bubble target
  imem : t.imem = s.imem
  dmemBytes : t.dmemBytes = s.dmemBytes
  fault : t.fault = s.fault
  cycle : t.cycle = s.cycle + 1
  stage : t.stage = .id

/-- A step takes each field from the stage that replaces it, and every other field from the state it began in. -/
theorem step_fields {s s1 s2 s3 s4 t : State} (h1 : wbStage s = .next s1) (h2 : memStage s1 = .next s2)
    (h3 : exStage s2 = .next s3) (h4 : idStage s3 = .next s4) (ht : t = { s4 with cycle := s4.cycle + 1, stage := .id }) :
    t = { s with regs := s1.regs, memWb := s2.memWb, mem := s2.mem, touched := s2.touched, exMem := s3.exMem,
                 pc := s4.pc, ifId := s4.ifId, idEx := s4.idEx, cycle := s.cycle + 1, stage := .id } := by
  rw [ht, idStage_frame h4, olderStages_frame h1 h2 h3]

/-- Every step that answers a next state has the effect above: each field is what the stage that replaces it makes of the
values at the start of the cycle. -/
theorem step_effect {s t : State} (h : step s = .next t) : StepEffect s t := by
  obtain ⟨hfault, s1, s2, s3, s4, h1, h2, h3, h4, ht⟩ := step_next h
  have f1 := wbStage_next h1
  have f2 := memStage_next h2
  have f3 := olderStages_frame h1 h2 h3
  have hregs := wbStage_regs h1
  have hmemWb : Carries ExMemData.instr MemWbData.instr s.exMem s2.memWb := by
    have hslot : s1.exMem = s.exMem := by rw [f1]
    rw [← hslot]; exact memStage_carries h2
  have hmemory : StoresAtMost s s2 := by
    have hstores := memStage_stores h2
    rw [f1] at hstores; exact hstores
  have hexMem : Carries IdExData.instr ExMemData.instr s.idEx s3.exMem := by
    have hslot : s2.idEx = s.idEx := by rw [f2, f1]
    rw [← hslot]; exact exStage_carries h3
  have hifId : s3.ifId = s.ifId := by rw [f3]
  have hidEx : Carries decode IdExData.instr s.ifId s4.idEx := by
    rw [← hifId]; exact idStage_carries h4
  have hcontrol := idStage_control h4
  have hread : ∀ r, readLane s3.regs r = rfRead s r := by
    have hfile : s3.regs = s1.regs := by rw [f3]
    rw [hfile]; exact readLane_wbStage h1
  obtain ⟨hpc, hfetched⟩ := fetch_congr (s := s) (s' := s3) (by rw [f3]) (by rw [f3])
  simp only [takesIn_iff_taken hread hifId, ← not_exists, hpc, hfetched] at hcontrol
  obtain rfl := step_fields h1 h2 h3 h4 ht
  exact ⟨hfault, hregs, hmemWb, hmemory, hexMem, hidEx, hcontrol, rfl, rfl, rfl, rfl, rfl⟩

/-! ### The obligations about one step -/

theorem rfWe_of_bubble {s : State} (h : s.memWb.content = none) : rfWe s = false := by
  simp only [rfWe, h]

theorem not_taken_of_ifId_bubble {s : State} (h : s.ifId.content = none) : ¬ ∃ target, Taken s target := by
  rintro ⟨target, w, i, hw, -⟩
  rw [h] at hw
  cases hw

/-- A bubble in EX_MEM stores nothing (R226). -/
theorem StoresAtMost.of_bubble {s t : State} (h : StoresAtMost s t) (hc : s.exMem.content = none) : t.mem = s.mem := by
  rcases h with ⟨hm, _⟩ | ⟨c, hc', _⟩
  · exact hm
  · rw [hc] at hc'; cases hc'

/-- Settles O43: the write port is off at a bubble, and each slot carries a bubble on. -/
theorem bubblesAreInert : Obligations.BubblesAreInert := by
  intro s t h
  have he := step_effect h
  refine ⟨fun hwb => ?_, fun hmem => ⟨he.memory.of_bubble hmem, he.memWb.of_bubble hmem⟩, he.exMem.of_bubble,
    fun hid => ⟨he.idEx.of_bubble hid, not_taken_of_ifId_bubble hid⟩⟩
  rw [he.regs, rfWe_of_bubble hwb]
  rfl

/-- Settles O45, by the fields no stage replaces. -/
theorem stepKeepsProgramAndCounts : Obligations.StepKeepsProgramAndCounts := by
  intro s t h
  have he := step_effect h
  exact ⟨he.cycle, he.latchClear, he.fault.trans he.latchClear, he.imem, he.dmemBytes⟩

/-! ### The invariant -/

theorem mem_insertAddr {l : List Nat} {a b : Nat} : b ∈ insertAddr l a ↔ b = a ∨ b ∈ l := by
  induction l with
  | nil => simp [insertAddr]
  | cons c l ih =>
    unfold insertAddr
    split
    · simp
    · split
      · simp_all
      · simp only [List.mem_cons, ih]; tauto

theorem mem_noteStore {touched : List Nat} {addr b : Nat} :
    b ∈ noteStore touched addr ↔ b = (addr + 3) / 4 * 4 ∨ b = addr / 4 * 4 ∨ b ∈ touched := by
  rw [noteStore, mem_insertAddr, mem_insertAddr]

theorem lt_of_fetched {imem : List Word} {pc w : Word} (h : instructionFetch imem pc = some w) :
    pc.toNat < 4 * imem.length := by
  unfold instructionFetch at h
  split at h
  · assumption
  · cases h

/-- An address at which a program of fewer than `2^30` words is fetched lies more than 4 below `2^32` (R31). -/
theorem toNat_add_four {imem : List Word} {pc w : Word} (hb : imem.length < Config.programWordsBound)
    (h : instructionFetch imem pc = some w) : (pc + 4#32).toNat = pc.toNat + 4 := by
  have hlt := lt_of_fetched h
  unfold Config.programWordsBound at hb
  rw [BitVec.toNat_add, BitVec.toNat_ofNat]
  omega

theorem linkValue_eq (pc : Word) : linkValue pc = pc + 4#32 := by
  unfold linkValue u32
  apply BitVec.eq_of_toNat_eq
  rw [BitVec.toNat_ofInt, BitVec.toNat_add, BitVec.toNat_ofNat]
  omega

theorem fetch_pc_cases (s : State) :
    (∃ w, instructionFetch s.imem s.pc = some w ∧ (fetch s).pc = s.pc + 4#32) ∨ (fetch s).pc = s.pc := by
  rcases fetch_cases s with ⟨w, hw, hf⟩ | ⟨_, hf⟩ <;> rw [hf]
  · exact .inl ⟨w, hw, rfl⟩
  · exact .inr rfl

/-- The fetch increment keeps `pc` a multiple of 4 (R29). -/
theorem fetch_pc_aligned {s : State} (h : s.pc.toNat % 4 = 0) : (fetch s).pc.toNat % 4 = 0 := by
  rcases fetch_pc_cases s with ⟨w, _, hpc⟩ | hpc <;> rw [hpc]
  · rw [BitVec.toNat_add, BitVec.toNat_ofNat]
    omega
  · exact h

/-- The fetch increment never wraps (R31). -/
theorem fetch_pc_bounds {s : State} (hb : s.imem.length < Config.programWordsBound) :
    s.pc.toNat ≤ (fetch s).pc.toNat ∧ (fetch s).pc.toNat ≤ s.pc.toNat + 4 := by
  rcases fetch_pc_cases s with ⟨w, hw, hpc⟩ | hpc <;> rw [hpc]
  · rw [toNat_add_four hb hw]; omega
  · omega

/-- What IF puts into IF_ID is the program word at the address it carries (R243). -/
theorem fetch_fetched {s : State} {w : Word} (h : (fetch s).ifId.content = some w) :
    instructionFetch s.imem (fetch s).ifId.pc = some w := by
  rcases fetch_cases s with ⟨w', hw, hf⟩ | ⟨_, hf⟩ <;> rw [hf] at h ⊢
  · cases h; exact hw
  · cases h

theorem StoresAtMost.wf {s t : State} (h : StoresAtMost s t) (hm : Memory.wf s.mem = true) :
    Memory.wf t.mem = true := by
  rcases h with ⟨he, _⟩ | ⟨c, _, _, he, _⟩ <;> rw [he]
  · exact hm
  · exact wf_setWord hm _ _

theorem StoresAtMost.within {s t : State} (h : StoresAtMost s t) (hm : Memory.within s.dmemBytes s.mem = true) :
    Memory.within s.dmemBytes t.mem = true := by
  rcases h with ⟨he, _⟩ | ⟨c, _, hb, he, _⟩ <;> rw [he]
  · exact hm
  · exact within_setWord hm hb _

theorem StoresAtMost.touched_aligned {s t : State} (h : StoresAtMost s t)
    (hs : ∀ a ∈ s.touched, a % 4 = 0 ∧ a < s.dmemBytes) : ∀ a ∈ t.touched, a % 4 = 0 ∧ a < s.dmemBytes := by
  rcases h with ⟨_, he⟩ | ⟨c, _, hb, _, he⟩ <;> rw [he]
  · exact hs
  · intro a ha
    rcases mem_noteStore.1 ha with rfl | rfl | ha
    · omega
    · omega
    · exact hs a ha

/-- The invariant is kept clause by clause: each slot takes over the record, hence the program word, of the slot before
it. -/
theorem StepEffect.keeps_inv {s t : State} (he : StepEffect s t) (hi : Machine.Inv s) : Machine.Inv t where
  pcAligned := by
    rcases he.control with ⟨_, hpc, _⟩ | ⟨target, _, hal, hpc, _⟩ <;> rw [hpc]
    · exact fetch_pc_aligned hi.pcAligned
    · exact hal
  programBound := he.imem ▸ hi.programBound
  capacity := he.dmemBytes ▸ hi.capacity
  memoryWf := he.memory.wf hi.memoryWf
  memoryWithin := he.dmemBytes ▸ he.memory.within hi.memoryWithin
  laneZero := by
    rw [he.regs]
    split
    · rw [writeLane_lane_zero]; exact hi.laneZero
    · exact hi.laneZero
  touchedAligned := he.dmemBytes ▸ he.memory.touched_aligned hi.touchedAligned
  stageRests := he.stage
  ifIdFetched := by
    rw [he.imem]
    rcases he.control with ⟨_, _, hif⟩ | ⟨target, _, _, _, hif⟩ <;> rw [hif]
    · exact fun w hw => fetch_fetched hw
    · nofun
  idExDecoded := by
    rw [he.imem]
    exact he.idEx.fromProgram fun w hw => ⟨w, hi.ifIdFetched w hw, rfl⟩
  exMemDecoded := by rw [he.imem]; exact he.exMem.fromProgram hi.idExDecoded
  memWbDecoded := by rw [he.imem]; exact he.memWb.fromProgram hi.exMemDecoded

/-- Settles O52, by the effect of a step. -/
theorem stepKeepsInvariant : Obligations.StepKeepsInvariant := fun _ _ hi h => (step_effect h).keeps_inv hi

/-- Settles O53: both sums are of an address at which the program is fetched. -/
theorem pcNeverWraps : Obligations.PcNeverWraps := by
  intro s hi
  refine ⟨fun t h hnt => ?_, fun c hc => ?_⟩
  · rcases (step_effect h).control with ⟨_, hpc, _⟩ | ⟨target, htk, _⟩
    · rw [hpc]; exact fetch_pc_bounds hi.programBound
    · exact absurd ⟨target, htk⟩ hnt
  · obtain ⟨w, hw, -⟩ := hi.idExDecoded c hc
    rw [linkValue_eq, toNat_add_four hi.programBound hw]

end Sys2Proof.Machine
end

section
/-! PROOFS. The data memory: what the word write, the image and a byte write leave at each address, that the canonical
form is canonical, what an instruction may store, and a load behind a store. -/

namespace Sys2Proof.Machine

open Sys2Proof.Claims

/-! ### Word accesses -/

/-- A byte appended below a bit vector adds its value to 2^8 times the vector's. -/
theorem toNat_append_byte {n : Nat} (x : BitVec n) (b : Byte) : (x ++ b).toNat = 2 ^ 8 * x.toNat + b.toNat := by
  rw [BitVec.toNat_append, ← Nat.shiftLeft_add_eq_or_of_lt b.isLt, Nat.shiftLeft_eq, Nat.mul_comm]

/-- The word read is the four bytes weighted 1, 2^8, 2^16, 2^24 (R64). -/
theorem toNat_wordAt (m : Memory) (addr : Nat) :
    (wordAt m addr).toNat = (Memory.get m addr).toNat + 2 ^ 8 * (Memory.get m (addr + 1)).toNat +
      2 ^ 16 * (Memory.get m (addr + 2)).toNat + 2 ^ 24 * (Memory.get m (addr + 3)).toNat := by
  simp only [wordAt, toNat_append_byte]
  omega

/-- The eight bits of a word from bit `lo` on, as a number. -/
theorem toNat_byteOf (v : Word) (lo : Nat) : (v.extractLsb' lo 8).toNat = v.toNat / 2 ^ lo % 2 ^ 8 := by
  rw [BitVec.extractLsb'_toNat, Nat.shiftRight_eq_div_pow]

/-- The four bytes of a word write (R65). -/
theorem get_setWord_bytes {m : Memory} (hm : Memory.wf m = true) (addr : Nat) (v : Word) :
    Memory.get (setWord m addr v) addr = v.extractLsb' 0 8 ∧
    Memory.get (setWord m addr v) (addr + 1) = v.extractLsb' 8 8 ∧
    Memory.get (setWord m addr v) (addr + 2) = v.extractLsb' 16 8 ∧
    Memory.get (setWord m addr v) (addr + 3) = v.extractLsb' 24 8 := by
  simp [get_setWord hm]

/-- A byte write leaves every other byte alone, in a memory of any form: it goes past entries of other addresses. -/
theorem get_set_of_ne (m : Memory) {a c : Nat} (h : c ≠ a) (b : Byte) :
    Memory.get (Memory.set m a b) c = Memory.get m c := by
  induction m with
  | nil => unfold Memory.set; split <;> simp [Memory.get, h]
  | cons d m ih =>
    simp only [Memory.set]
    split_ifs with hlt hb heq hb
    · rfl
    · simp [Memory.get, h]
    · simp [Memory.get, heq ▸ h]
    · simp [Memory.get, h, heq ▸ h]
    · simp [Memory.get, ih]

/-- A word write leaves every byte outside its four alone, in a memory of any form (R65). -/
theorem get_setWord_outside (m : Memory) {addr a : Nat} (h : a < addr ∨ addr + 4 ≤ a) (v : Word) :
    Memory.get (setWord m addr v) a = Memory.get m a := by
  unfold setWord
  rw [get_set_of_ne _ (by omega), get_set_of_ne _ (by omega), get_set_of_ne _ (by omega), get_set_of_ne _ (by omega)]

/-- A word read gives the word written at the same address, at any alignment (R64, R65, R68). -/
theorem wordAt_setWord_same {m : Memory} (hm : Memory.wf m = true) (addr : Nat) (v : Word) :
    wordAt (setWord m addr v) addr = v := by
  obtain ⟨h0, h1, h2, h3⟩ := get_setWord_bytes hm addr v
  apply BitVec.eq_of_toNat_eq
  rw [toNat_wordAt, h0, h1, h2, h3]
  simp only [toNat_byteOf]
  omega

/-- A word write leaves a word of four other bytes alone. -/
theorem wordAt_setWord_disjoint (m : Memory) {addr a : Nat} (h : a + 4 ≤ addr ∨ addr + 4 ≤ a) (v : Word) :
    wordAt (setWord m addr v) a = wordAt m a := by
  unfold wordAt
  rw [get_setWord_outside m (by omega), get_setWord_outside m (by omega), get_setWord_outside m (by omega),
    get_setWord_outside m (by omega)]

theorem readWord_of_le {capacity addr : Nat} (m : Memory) (h : addr + 4 ≤ capacity) :
    readWord capacity m addr = some (wordAt m addr) := if_pos h

theorem writeWord_of_le {capacity addr : Nat} (m : Memory) (h : addr + 4 ≤ capacity) (v : Word) :
    writeWord capacity m addr v = some (setWord m addr v) := if_pos h

theorem writeWord_eq_some {capacity addr : Nat} {m m' : Memory} {v : Word} :
    writeWord capacity m addr v = some m' ↔ addr + 4 ≤ capacity ∧ setWord m addr v = m' := by
  simp [writeWord]

/-- Settles O17: in bounds by the bytes of the word read and of the word write, out of bounds by the bound both test. -/
theorem wordAccessLittleEndian : Obligations.WordAccessLittleEndian := by
  intro capacity addr m v hm
  refine ⟨fun h => ⟨⟨_, readWord_of_le m h, toNat_wordAt m addr⟩, _, writeWord_of_le m h v, ?_⟩,
    fun h => ⟨if_neg h.not_ge, if_neg h.not_ge⟩⟩
  obtain ⟨h0, h1, h2, h3⟩ := get_setWord_bytes hm addr v
  rw [h0, h1, h2, h3, toNat_byteOf, toNat_byteOf, toNat_byteOf, toNat_byteOf]
  exact ⟨by omega, rfl, rfl, by omega, fun a ha => get_setWord_outside m ha v⟩

/-- Settles O18, by the word at the address written and at a disjoint one. -/
theorem wordReadAfterWrite : Obligations.WordReadAfterWrite := by
  intro capacity addr m m' v hm h
  obtain ⟨hb, rfl⟩ := writeWord_eq_some.1 h
  refine ⟨by rw [readWord_of_le _ hb, wordAt_setWord_same hm], fun a ha => ?_⟩
  unfold readWord
  rw [wordAt_setWord_disjoint m ha]

/-! ### The image -/

/-- An image leaves every byte outside it alone, in a memory of any form. -/
theorem get_setBytes_outside (m : Memory) {base a : Nat} {bytes : List Byte} (h : a < base ∨ base + bytes.length ≤ a) :
    Memory.get (setBytes m base bytes) a = Memory.get m a := by
  induction bytes generalizing m base with
  | nil => rfl
  | cons b bytes ih =>
    rw [List.length_cons] at h
    rw [setBytes, ih _ (by omega), get_set_of_ne _ (by omega)]

/-- Byte `k` of an image stands at `base + k` (R66): the first byte is written first, and the rest of the image leaves it
alone. -/
theorem get_setBytes_inside {m : Memory} (hm : Memory.wf m = true) {base k : Nat} {bytes : List Byte}
    (h : k < bytes.length) : Memory.get (setBytes m base bytes) (base + k) = bytes.getD k 0#8 := by
  induction bytes generalizing m base k with
  | nil => cases h
  | cons b bytes ih =>
    rw [setBytes]
    cases k with
    | zero => rw [get_setBytes_outside _ (by omega), get_set hm, if_pos (Nat.add_zero base), List.getD_cons_zero]
    | succ k =>
      have hk : k < bytes.length := Nat.lt_of_succ_lt_succ h
      rw [List.getD_cons_succ, ← ih (wf_set hm base b) (base := base + 1) hk, Nat.add_right_comm, Nat.add_assoc]

/-- Settles O19, by the bound the image is refused on, and the bytes inside and outside it. -/
theorem loadImageAllOrNothing : Obligations.LoadImageAllOrNothing := by
  intro capacity base m bytes hm
  exact ⟨fun h => if_neg h.not_ge, fun h => ⟨_, if_pos h, fun k hk => get_setBytes_inside hm hk,
    fun a ha => get_setBytes_outside m ha⟩⟩

/-! ### The canonical form is canonical -/

theorem wfFrom_cons {lo : Nat} {c : Host.Cell} {m : Memory} :
    Memory.wfFrom lo (c :: m) = true ↔ lo ≤ c.1 ∧ c.2 ≠ 0#8 ∧ Memory.wfFrom (c.1 + 1) m = true := by
  simp [Memory.wfFrom, and_assoc]

theorem get_cons_self (c : Host.Cell) (m : Memory) : Memory.get (c :: m) c.1 = c.2 := if_pos rfl

/-- The first address listed is the least one that does not read 0, so a memory that reads alike lists none before it. -/
theorem first_le_of_get_eq {lo : Nat} {c : Host.Cell} {m m' : Memory} (hm : Memory.wfFrom lo (c :: m) = true)
    (hm' : Memory.wfFrom lo m' = true) (h : ∀ a, Memory.get (c :: m) a = Memory.get m' a) :
    ∃ c' m'', m' = c' :: m'' ∧ c'.1 ≤ c.1 := by
  have hread : Memory.get m' c.1 ≠ 0#8 := by
    rw [← h, get_cons_self]
    exact (wfFrom_cons.1 hm).2.1
  cases m' with
  | nil => exact absurd rfl hread
  | cons c' m'' =>
    refine ⟨c', m'', rfl, Nat.le_of_not_lt fun hlt => hread ?_⟩
    obtain ⟨-, hb, hrest⟩ := wfFrom_cons.1 hm'
    exact get_below (wfFrom_cons.2 ⟨le_refl _, hb, hrest⟩) hlt

/-- Without its first entry a canonical memory reads 0 at the entry's address, and as before elsewhere. -/
theorem get_tail {c : Host.Cell} {m : Memory} (hm : Memory.wfFrom (c.1 + 1) m = true) (a : Nat) :
    Memory.get m a = if a = c.1 then 0#8 else Memory.get (c :: m) a := by
  split
  · exact get_below hm (by omega)
  · exact (if_neg ‹_›).symm

/-- Canonical memories that read alike have the same first entry, and without it read alike again. -/
theorem eq_of_get_eq {lo : Nat} {m m' : Memory} (hm : Memory.wfFrom lo m = true) (hm' : Memory.wfFrom lo m' = true)
    (h : ∀ a, Memory.get m a = Memory.get m' a) : m = m' := by
  induction m generalizing lo m' with
  | nil =>
    cases m' with
    | nil => rfl
    | cons c' m' =>
      obtain ⟨_, _, hnil, -⟩ := first_le_of_get_eq hm' hm fun a => (h a).symm
      cases hnil
  | cons c m ih =>
    obtain ⟨c', m', rfl, hle⟩ := first_le_of_get_eq hm hm' h
    obtain ⟨_, _, heq, hge⟩ := first_le_of_get_eq hm' hm fun a => (h a).symm
    cases heq
    have haddr : c.1 = c'.1 := Nat.le_antisymm hge hle
    have hcell : c = c' := by
      refine Prod.ext haddr ?_
      rw [← get_cons_self c m, h, haddr, get_cons_self]
    subst hcell
    obtain ⟨-, -, hrest⟩ := wfFrom_cons.1 hm
    obtain ⟨-, -, hrest'⟩ := wfFrom_cons.1 hm'
    rw [ih hrest hrest' fun a => by rw [get_tail hrest, get_tail hrest', h]]

/-- Settles O20, by induction on the entries. -/
theorem canonicalMemoryIsExtensional : Obligations.CanonicalMemoryIsExtensional :=
  fun _ _ hm hm' h => eq_of_get_eq hm hm' h

/-! ### What an instruction may store -/

/-- No instruction changes memory or the noted stores, but for `sw` in MEM with an occupied EX_MEM, which stores its word
(R72, R73, R228). -/
theorem exec_stores {i : Instr} {s t : State} (h : exec i s = .next t) :
    (t.mem = s.mem ∧ t.touched = s.touched) ∨
    (s.stage = .mem ∧ i.mnemonic = .sw ∧ ∃ c, s.exMem.content = some c ∧
      t.mem = setWord s.mem c.aluResult.toNat c.rs2Val) := by
  cases hs : s.stage with
  | wb => rw [exec_wb_frame hs h]; exact .inl ⟨rfl, rfl⟩
  | ex => rw [exec_ex_frame hs h]; exact .inl ⟨rfl, rfl⟩
  | id => rw [exec_id_frame hs h]; exact .inl ⟨rfl, rfl⟩
  | mem =>
    rcases exec_mem_next hs h with ht | ⟨c, hi, hc, -, rfl⟩
    · rw [ht]; exact .inl ⟨rfl, rfl⟩
    · exact .inr ⟨rfl, hi, c, hc, rfl⟩

/-- Settles O34: the premise of the first clause rules a store out, and a store writes within its four bytes. -/
theorem memoryFrame : Obligations.MemoryFrame := by
  intro i s t h
  rcases exec_stores h with ⟨hmem, htouched⟩ | ⟨hs, hi, c, hc, hmem⟩
  · exact ⟨fun _ => ⟨hmem, htouched⟩, fun _ _ a _ => by rw [hmem]⟩
  · refine ⟨fun hno => ?_, fun c' hc' a ha => ?_⟩
    · rcases hno with hno | hno | hno
      · exact absurd hs hno
      · exact absurd hi hno
      · rw [hc] at hno; cases hno
    · cases hc.symm.trans hc'
      rw [hmem, get_setWord_outside _ ha]

/-! ### A load behind a store -/

theorem exec_sw_mem (rs1 rs2 : RegIdx) (imm : Int) {s : State} (hs : s.stage = .mem) :
    exec (.sw rs1 rs2 imm) s = memStore s := by
  simp only [exec, execSw, hs]

theorem exec_lw_mem (rd rs1 : RegIdx) (imm : Int) {s : State} (hs : s.stage = .mem) :
    exec (.lw rd rs1 imm) s = memLoad s := by
  simp only [exec, execLw, hs]

theorem exec_lw_ex (rd rs1 : RegIdx) (imm : Int) {s : State} (hs : s.stage = .ex) :
    exec (.lw rd rs1 imm) s = exAlu .add (some imm) s := by
  simp only [exec, execLw, hs]

theorem memStage_of_known {s : State} {c : ExMemData} {i : Instr} (hc : s.exMem.content = some c)
    (hi : Holds c.instr i) : memStage s = exec i (atStage .mem s) := by
  obtain ⟨raw, hr⟩ := hi
  simp only [memStage, hc, hr]

theorem exStage_of_known {s : State} {c : IdExData} {i : Instr} (hc : s.idEx.content = some c)
    (hi : Holds c.instr i) : exStage s = exec i (atStage .ex s) := by
  obtain ⟨raw, hr⟩ := hi
  simp only [exStage, hc, hr]

/-- The instruction in EX_MEM does its MEM on the EX_MEM and the memory the step began with (R220, R247). -/
theorem step_exec_mem {s t : State} (h : step s = .next t) {c : ExMemData} {i : Instr}
    (hc : s.exMem.content = some c) (hi : Holds c.instr i) : ∃ u v,
    u.stage = .mem ∧ u.exMem = s.exMem ∧ u.mem = s.mem ∧ exec i u = .next v ∧ t.mem = v.mem ∧ t.memWb = v.memWb := by
  obtain ⟨-, s1, s2, s3, s4, h1, h2, h3, h4, ht⟩ := step_next h
  have f1 := wbStage_next h1
  have ft := step_fields h1 h2 h3 h4 ht
  have hslot : s1.exMem = s.exMem := by rw [f1]
  have hmem : s1.mem = s.mem := by rw [f1]
  rw [memStage_of_known (hslot ▸ hc) hi] at h2
  exact ⟨atStage .mem s1, s2, rfl, hslot, hmem, h2, by rw [ft], by rw [ft]⟩

/-- The instruction in ID_EX does its EX on the ID_EX the step began with (R220, R247). -/
theorem step_exec_ex {s t : State} (h : step s = .next t) {d : IdExData} {i : Instr}
    (hd : s.idEx.content = some d) (hi : Holds d.instr i) : ∃ u v,
    u.stage = .ex ∧ u.idEx = s.idEx ∧ exec i u = .next v ∧ t.exMem = v.exMem := by
  obtain ⟨-, s1, s2, s3, s4, h1, h2, h3, h4, ht⟩ := step_next h
  have ft := step_fields h1 h2 h3 h4 ht
  have hslot : s2.idEx = s.idEx := by rw [memStage_next h2, wbStage_next h1]
  rw [exStage_of_known (hslot ▸ hd) hi] at h3
  exact ⟨atStage .ex s2, s3, rfl, hslot, h3, by rw [ft]⟩

/-- A step with `sw` in EX_MEM stores its word (R228). -/
theorem step_mem_of_sw {s t : State} (h : step s = .next t) {c : ExMemData} {rs1 rs2 : RegIdx} {imm : Int}
    (hc : s.exMem.content = some c) (hi : Holds c.instr (.sw rs1 rs2 imm)) :
    t.mem = setWord s.mem c.aluResult.toNat c.rs2Val := by
  obtain ⟨u, v, hst, hslot, hmem, hv, htmem, -⟩ := step_exec_mem h hc hi
  rw [← hslot] at hc
  rw [exec_sw_mem _ _ _ hst] at hv
  rcases memStore_next hv with ⟨hn, -⟩ | ⟨c', hc', -, rfl⟩
  · cases hc.symm.trans hn
  · cases hc.symm.trans hc'
    rw [htmem, hmem]

/-- A step with `lw` in EX_MEM delivers the word at its address (R227). -/
theorem step_memWb_of_lw {s t : State} (h : step s = .next t) {c : ExMemData} {rd rs1 : RegIdx} {imm : Int}
    (hc : s.exMem.content = some c) (hi : Holds c.instr (.lw rd rs1 imm)) :
    t.memWb = ⟨s.exMem.pc, some ⟨c.instr, wordAt s.mem c.aluResult.toNat⟩⟩ := by
  obtain ⟨u, v, hst, hslot, hmem, hv, -, htmemWb⟩ := step_exec_mem h hc hi
  rw [← hslot] at hc ⊢
  rw [exec_lw_mem _ _ _ hst] at hv
  rcases memLoad_next hv with ⟨hn, -⟩ | ⟨c', hc', -, rfl⟩
  · cases hc.symm.trans hn
  · cases hc.symm.trans hc'
    rw [htmemWb, hmem]

/-- A step with `lw` in ID_EX hands its effective address to MEM (R192, R232). -/
theorem step_exMem_of_lw {s t : State} (h : step s = .next t) {d : IdExData} {rd rs1 : RegIdx} {imm : Int}
    (hd : s.idEx.content = some d) (hi : Holds d.instr (.lw rd rs1 imm)) :
    t.exMem = ⟨s.idEx.pc, some ⟨d.instr, d.rs1Val + u32 imm, d.rs2Val⟩⟩ := by
  obtain ⟨u, v, hst, hslot, hv, htexMem⟩ := step_exec_ex h hd hi
  rw [← hslot] at hd ⊢
  rw [exec_lw_ex _ _ _ hst] at hv
  rcases exAlu_next hv with ⟨hn, -⟩ | ⟨d', r, hd', hr, rfl⟩
  · cases hd.symm.trans hn
  · cases hd.symm.trans hd'
    cases hr
    exact htexMem

/-- Settles O58: the first step stores the word and computes the address of the load, the second reads that word. -/
theorem loadSeesPrecedingStore : Obligations.LoadSeesPrecedingStore := by
  intro s t u c d rs1 rs2 rd base imm imm' hm hst htu hc hsw hd hlw haddr
  have hmem := step_mem_of_sw hst hc hsw
  have hexMem := step_exMem_of_lw hst hd hlw
  rw [haddr] at hexMem
  rw [step_memWb_of_lw htu (c := ⟨d.instr, c.aluResult, d.rs2Val⟩) (by rw [hexMem]) hlw, hexMem, hmem,
    wordAt_setWord_same hm]

end Sys2Proof.Machine
end

section
/-! PROOFS. The codec: what a word reads from a layout, the rows of the opcode map, both round trips, the Unknown words
and the assembler's words. Each direction has one key lemma: `fieldsOf_instrOf` (the fields `encode` places for a decoded
instruction are those of its word) and `instrOf_wordOf` (the row of an instruction reads its operands back). -/

namespace Sys2Proof

open Sys2Proof.Machine Sys2Proof.Claims

/-! ### Layouts: reading and writing the columns of a field -/

/-- The columns of a field from its lowest bit up, as columns of the field: each at its place in the field, holding the
bits from `source g` up of what it is read from. -/
def columnsOf (segs : List Segment) (n : FieldName) (source : Segment → Nat) : List Segment :=
  ((segs.filter fun g => g.field = n).insertionSort fun g h => g.lo ≤ h.lo).map fun g =>
    { g with pos := g.lo, lo := source g }

/-- The lowest bit of a field that a column carries: bit 1 of the immediates of B and J, whose bit 0 is not in the word
(R99, R100). -/
def lowestBit : Format → FieldName → Nat
  | .b, .imm | .j, .imm => 1
  | _, _ => 0

/-- The columns of a field cover its bits, each once, whatever they are read from. -/
theorem columnsOf_tiles (f : Format) (n : FieldName) (source : Segment → Nat) :
    tiles (columnsOf (layout f) n source) (lowestBit f n) (fieldWidth (layout f) n) = true := by
  cases f <;> cases n <;> rfl

theorem mem_columnsOf {segs : List Segment} {g : Segment} (hg : g ∈ segs) (source : Segment → Nat) :
    { g with pos := g.lo, lo := source g } ∈ columnsOf segs g.field source := by
  refine List.mem_map_of_mem (f := fun g : Segment => { g with pos := g.lo, lo := source g }) ?_
  simp [hg]

/-- The order of the columns does not matter to the field they make up. -/
theorem place_columnsOf (segs : List Segment) (n : FieldName) (source : Segment → Nat) (x : Nat) :
    place (columnsOf segs n source) (fun _ => x) =
      (segs.map fun g => if g.field = n then x / 2 ^ source g % 2 ^ g.width * 2 ^ g.lo else 0).sum := by
  simp only [place, columnsOf, List.map_map, Function.comp_def]
  rw [((List.perm_insertionSort _ _).map _).sum_eq, List.sum_map_ite]
  simp

theorem fieldAt_eq_place (f : Format) (n : FieldName) (w : Word) :
    fieldAt (layout f) n w = place (columnsOf (layout f) n Segment.pos) (fun _ => w.toNat) :=
  (place_columnsOf ..).symm

theorem fieldAt_lt (f : Format) (n : FieldName) (w : Word) :
    fieldAt (layout f) n w < 2 ^ fieldWidth (layout f) n := by
  have h := place_lt (columnsOf_tiles f n Segment.pos) fun _ => w.toNat
  have hpos := Nat.two_pow_pos (lowestBit f n)
  rw [fieldAt_eq_place]
  omega

theorem fieldAt_low (f : Format) (n : FieldName) (w : Word) : 2 ^ lowestBit f n ∣ fieldAt (layout f) n w := by
  rw [fieldAt_eq_place]
  exact place_dvd (columnsOf_tiles f n Segment.pos) _

/-- The field `n` of a word is the number a bit vector of the field's width holds. -/
theorem toNat_ofNat_of_width {k : Nat} {f : Format} {n : FieldName} (hk : fieldWidth (layout f) n ≤ k) (w : Word) :
    (BitVec.ofNat k (fieldAt (layout f) n w)).toNat = fieldAt (layout f) n w := by
  rw [BitVec.toNat_ofNat, Nat.mod_eq_of_lt ((fieldAt_lt f n w).trans_le (Nat.pow_le_pow_right Nat.two_pos hk))]

/-- Each column of a field read from a word holds the bits of the word at its place. -/
theorem fieldAt_column (f : Format) (w : Word) {g : Segment} (hg : g ∈ layout f) :
    fieldAt (layout f) g.field w / 2 ^ g.lo % 2 ^ g.width = w.toNat / 2 ^ g.pos % 2 ^ g.width := by
  rw [fieldAt_eq_place]
  exact place_column (columnsOf_tiles f g.field Segment.pos) _ (mem_columnsOf hg Segment.pos)

/-- Columns that hold the bits of `x` at their places make up `x`, from bit `k` to bit `n - 1`. -/
theorem place_of_columns {segs : List Segment} {k n : Nat} (ht : tiles segs k n = true) {v : FieldName → Nat} {x : Nat}
    (hv : ∀ g ∈ segs, v g.field / 2 ^ g.lo % 2 ^ g.width = x / 2 ^ g.pos % 2 ^ g.width) :
    x % 2 ^ k + place segs v = x % 2 ^ n := by
  induction segs generalizing k with
  | nil =>
    obtain rfl : k = n := by simpa [tiles] using ht
    rfl
  | cons g segs ih =>
    simp only [tiles, Bool.and_eq_true, beq_iff_eq] at ht
    obtain ⟨rfl, ht⟩ := ht
    rw [← ih ht fun g' hg' => hv g' (List.mem_cons_of_mem _ hg'), place_cons, hv g List.mem_cons_self, Nat.pow_add,
      Nat.mod_mul, Nat.mul_comm (2 ^ g.pos), Nat.add_assoc]

/-- A word is made up of its fields, in every format: a layout drops no bit (R122). -/
theorem place_fieldAt (f : Format) (w : Word) : place (layout f) (fun n => fieldAt (layout f) n w) = w.toNat := by
  have h := place_of_columns (layout_tiles f) (v := fun n => fieldAt (layout f) n w) fun g hg => fieldAt_column f w hg
  rwa [Nat.pow_zero, Nat.mod_one, Nat.zero_add, Nat.mod_eq_of_lt w.isLt] at h

/-- A layout carries every bit of a value that fits its field. -/
theorem carried_eq_self {f : Format} {n : FieldName} {x : Nat} (hlt : x < 2 ^ fieldWidth (layout f) n)
    (hlow : x % 2 ^ lowestBit f n = 0) : carried (layout f) n x = x := by
  have hsame : ∀ g ∈ columnsOf (layout f) n Segment.lo, g.lo = g.pos := by
    intro g hg
    obtain ⟨_, -, rfl⟩ := List.mem_map.1 hg
    rfl
  have h := place_of_columns (columnsOf_tiles f n Segment.lo) (v := fun _ => x) (x := x) fun g hg => by rw [hsame g hg]
  rw [hlow, Nat.zero_add, Nat.mod_eq_of_lt hlt, place_columnsOf] at h
  exact h

/-! ### The rows of the opcode map -/

theorem mem_allMnemonics (m : Mnemonic) : m ∈ allMnemonics := by
  cases m <;> decide

/-- Two values for one field of a key are compatible where they are equal or one row does not look at the field. -/
def compatible {α : Type} [DecidableEq α] : Option α → Option α → Bool
  | some a, some b => a == b
  | _, _ => true

/-- No field of two keys tells them apart: some word has both. -/
def OpKey.overlaps (k k' : OpKey) : Bool :=
  k.opcode == k'.opcode && compatible k.funct3 k'.funct3 && compatible k.funct7 k'.funct7 &&
    compatible k.rdIsZero k'.rdIsZero

/-- What a key asks of a word, field by field (R103). -/
theorem hasKey_iff {w : Word} {k : OpKey} : hasKey w k = true ↔
    opcodeOf w = k.opcode ∧ (∀ f, k.funct3 = some f → funct3Of w = f) ∧ (∀ f, k.funct7 = some f → funct7Of w = f) ∧
      ∀ z, k.rdIsZero = some z → (rdOf w == 0) = z := by
  obtain ⟨op, f3, f7, z⟩ := k
  cases f3 <;> cases f7 <;> cases z <;> simp [hasKey, and_assoc]

theorem compatible_of_eq {α : Type} [DecidableEq α] {a b : Option α} {x : α} (ha : ∀ y, a = some y → x = y)
    (hb : ∀ y, b = some y → x = y) : compatible a b = true := by
  cases a with
  | none => rfl
  | some a =>
    cases b with
    | none => rfl
    | some b => simp [compatible, ← ha a rfl, ← hb b rfl]

theorem overlaps_of_hasKey {w : Word} {k k' : OpKey} (h : hasKey w k = true) (h' : hasKey w k' = true) :
    k.overlaps k' = true := by
  obtain ⟨hop, hf3, hf7, hz⟩ := hasKey_iff.1 h
  obtain ⟨hop', hf3', hf7', hz'⟩ := hasKey_iff.1 h'
  simp [OpKey.overlaps, ← hop, ← hop', compatible_of_eq hf3 hf3', compatible_of_eq hf7 hf7', compatible_of_eq hz hz']

/-- The 20 keys are told apart two by two (R104). -/
theorem keys_apart : ∀ m ∈ allMnemonics, ∀ m' ∈ allMnemonics, (keyOf m).overlaps (keyOf m') = true → m = m' := by
  decide

/-- Settles O5: a word with two keys makes them overlap, and no two keys of the map do. -/
theorem opcodeKeysAreDisjoint : Obligations.OpcodeKeysAreDisjoint := fun _ m m' h h' =>
  keys_apart m (mem_allMnemonics m) m' (mem_allMnemonics m') (overlaps_of_hasKey h h')

theorem mnemonicOf_eq_some {w : Word} {m : Mnemonic} : mnemonicOf w = some m ↔ hasKey w (keyOf m) = true := by
  refine ⟨fun h => List.find?_some (p := fun m => hasKey w (keyOf m)) h, fun h => ?_⟩
  cases hf : mnemonicOf w with
  | none => exact absurd h (List.find?_eq_none.1 hf m (mem_allMnemonics m))
  | some m' => rw [opcodeKeysAreDisjoint w m m' h (List.find?_some (p := fun m => hasKey w (keyOf m)) hf)]

theorem mnemonicOf_eq_none {w : Word} : mnemonicOf w = none ↔ ∀ m, hasKey w (keyOf m) = false := by
  simp [mnemonicOf, List.find?_eq_none, mem_allMnemonics]

/-- The known words are those with the key of a row, and decode to the instruction of that row (R105). -/
theorem is_iff {w : Word} {i : Instr} : Is w i ↔ ∃ m, hasKey w (keyOf m) = true ∧ i = instrOf m w := by
  unfold Is decode
  cases h : mnemonicOf w with
  | none => simp [mnemonicOf_eq_none.1 h]
  | some m =>
    have hkey : ∀ m', hasKey w (keyOf m') = true ↔ m' = m := fun m' => by
      rw [← mnemonicOf_eq_some, h, Option.some_inj, eq_comm]
    simp [hkey, eq_comm]

theorem decode_eq_unknown {w : Word} : decode w = .unknown (rawOf w) ↔ ∀ m, hasKey w (keyOf m) = false := by
  rw [← mnemonicOf_eq_none, decode]
  split <;> simp [*]

/-! ### Immediates -/

/-- The immediates a format has a word for (R115); R has none, which counts as 0. -/
def Format.immFits : Format → Int → Bool
  | .r, imm => imm == 0
  | .i, imm | .s, imm => immFits12 imm
  | .b, imm => immFits13 imm
  | .j, imm => immFits21 imm

theorem fieldWidth_imm_pos {f : Format} (hf : f ≠ .r) : 0 < fieldWidth (layout f) .imm := by
  cases f with
  | r => exact absurd rfl hf
  | _ => decide

theorem operandsFit_eq (i : Instr) : i.operandsFit = i.format.immFits (i.imm?.getD 0) := by
  cases i <;> rfl

/-- The immediates that fit are the even ones, in B and J, in the two's-complement range of the field (R97 to R100). -/
theorem immFits_iff {f : Format} (hf : f ≠ .r) (imm : Int) : f.immFits imm = true ↔
    -2 ^ (fieldWidth (layout f) .imm - 1) ≤ imm ∧ imm < 2 ^ (fieldWidth (layout f) .imm - 1) ∧
      imm % 2 ^ lowestBit f .imm = 0 := by
  cases f <;> simp [Format.immFits, immFits12, immFits13, immFits21, lowestBit] at hf ⊢ <;> omega

/-- A divisor of `2^k` divides the signed reading of a `k`-bit word where it divides the unsigned one. -/
theorem dvd_toInt {k d : Nat} (hd : d ∣ 2 ^ k) {x : BitVec k} (hx : d ∣ x.toNat) : (d : Int) ∣ x.toInt := by
  have h := Int.bmod_add_bdiv (x.toNat : Int) (2 ^ k)
  rw [← BitVec.toInt_eq_toNat_bmod] at h
  exact (Int.dvd_add_left (Dvd.dvd.mul_right (Int.natCast_dvd_natCast.2 hd) _)).1 (h ▸ Int.natCast_dvd_natCast.2 hx)

theorem immOf_r (w : Word) : immOf .r w = 0 := BitVec.toInt_zero_length _

/-- Every immediate that is read from a word fits its format (R97 to R100, R115). -/
theorem immFits_immOf (f : Format) (w : Word) : f.immFits (immOf f w) = true := by
  by_cases hf : f = .r
  · subst hf
    rw [immOf_r]
    rfl
  · refine (immFits_iff hf _).2 ⟨BitVec.le_toInt _, BitVec.toInt_lt, ?_⟩
    have hdvd : 2 ^ lowestBit f .imm ∣ 2 ^ fieldWidth (layout f) .imm := Nat.pow_dvd_pow 2 (by cases f <;> decide)
    have hlow := fieldAt_low f .imm w
    rw [← toNat_ofNat_of_width le_rfl] at hlow
    simpa [immOf] using Int.emod_eq_zero_of_dvd (dvd_toInt hdvd hlow)

/-- `imm mod 2^k` is the two's-complement form in `k` bits (R116). -/
theorem toNat_emod_two_pow (k : Nat) (v : Int) : (v % 2 ^ k).toNat = (BitVec.ofInt k v).toNat := by
  rw [BitVec.toNat_ofInt, Int.natCast_pow, Nat.cast_two]

/-- The immediate's bits of a word are the two's-complement form of its immediate (R116). -/
theorem toNat_immOf_emod (f : Format) (w : Word) :
    (immOf f w % 2 ^ fieldWidth (layout f) .imm).toNat = fieldAt (layout f) .imm w := by
  rw [toNat_emod_two_pow, immOf, BitVec.ofInt_toInt, toNat_ofNat_of_width le_rfl]

/-- The two's-complement form of an immediate that fits is read back as the immediate (R101, R116). -/
theorem immOf_of_fieldAt {f : Format} {w : Word} {imm : Int} (h : f.immFits imm = true)
    (hw : fieldAt (layout f) .imm w = (imm % 2 ^ fieldWidth (layout f) .imm).toNat) : immOf f w = imm := by
  by_cases hf : f = .r
  · subst hf
    rw [immOf_r]
    exact (beq_iff_eq.1 h).symm
  · obtain ⟨hl, hu, -⟩ := (immFits_iff hf imm).1 h
    rw [immOf, hw, toNat_emod_two_pow, BitVec.ofNat_toNat, BitVec.setWidth_eq,
      BitVec.toInt_ofInt_eq_self (fieldWidth_imm_pos hf) hl hu]

/-! ### Encode after decode -/

@[simp] theorem instrOf_mnemonic (m : Mnemonic) (w : Word) : (instrOf m w).mnemonic = m := by
  cases m <;> rfl

@[simp] theorem instrOf_format (m : Mnemonic) (w : Word) : (instrOf m w).format = m.format :=
  congrArg Mnemonic.format (instrOf_mnemonic m w)

theorem instrOf_rs1 (m : Mnemonic) (w : Word) : (instrOf m w).rs1?.getD 0 = regOf m.format .rs1 w := by
  cases m <;> rfl

theorem instrOf_rs2 (m : Mnemonic) (w : Word) : (instrOf m w).rs2?.getD 0 = regOf m.format .rs2 w := by
  cases m <;> rfl

theorem instrOf_imm? (m : Mnemonic) (w : Word) :
    (instrOf m w).imm? = if m.format = .r then none else some (immOf m.format w) := by
  cases m <;> rfl

theorem instrOf_imm (m : Mnemonic) (w : Word) : (instrOf m w).imm?.getD 0 = immOf m.format w := by
  rw [instrOf_imm?]
  split
  · rename_i hf
    rw [hf, immOf_r]
    rfl
  · rfl

/-- The record of the row `j` has `rd = 0`, which its key asks of the word (R108). -/
theorem instrOf_rd {m : Mnemonic} {w : Word} (h : hasKey w (keyOf m) = true) :
    (instrOf m w).rd?.getD 0 = regOf m.format .rd w := by
  cases m with
  | j =>
    obtain ⟨-, -, -, hz⟩ := hasKey_iff.1 h
    have hrd : rdOf w = 0 := by simpa using hz true rfl
    exact hrd.symm
  | _ => rfl

theorem keyOf_funct3_isSome (m : Mnemonic) : (keyOf m).funct3.isSome = (m.format != .j) := by
  cases m <;> rfl

theorem keyOf_funct7_isSome (m : Mnemonic) : (keyOf m).funct7.isSome = (m.format == .r) := by
  cases m <;> rfl

/-- A row looks at `funct3` where its format has it, and its key gives the word's (R103, R104). -/
theorem funct3_of_hasKey {m : Mnemonic} {w : Word} (h : hasKey w (keyOf m) = true) :
    (keyOf m).funct3.getD 0 = BitVec.ofNat 3 (fieldAt (layout m.format) .funct3 w) := by
  obtain ⟨-, hf3, -, -⟩ := hasKey_iff.1 h
  have hsome := keyOf_funct3_isSome m
  cases hk : (keyOf m).funct3 with
  | none =>
    have hf : m.format = .j := by simpa [hk] using hsome
    rw [hf]
    rfl
  | some f =>
    rw [← funct3Of_eq (by rw [← hsome, hk]; rfl), hf3 f hk]
    rfl

/-- A row looks at `funct7` where its format has it, and its key gives the word's (R103, R104). -/
theorem funct7_of_hasKey {m : Mnemonic} {w : Word} (h : hasKey w (keyOf m) = true) :
    (keyOf m).funct7.getD 0 = BitVec.ofNat 7 (fieldAt (layout m.format) .funct7 w) := by
  obtain ⟨-, -, hf7, -⟩ := hasKey_iff.1 h
  have hsome := keyOf_funct7_isSome m
  cases hk : (keyOf m).funct7 with
  | none =>
    have hf : m.format ≠ .r := by simpa [hk] using hsome
    cases hm : m.format with
    | r => exact absurd hm hf
    | _ => rfl
  | some f =>
    have hf : m.format = .r := by simpa [hk] using hsome
    rw [hf, ← funct7Of, hf7 f hk]
    rfl

/-- The fields `encode` places for a decoded instruction are those the word has, in every column of its format. -/
theorem fieldsOf_instrOf {m : Mnemonic} {w : Word} (h : hasKey w (keyOf m) = true) (n : FieldName) :
    fieldsOf (instrOf m w) n = fieldAt (layout m.format) n w := by
  cases n with
  | opcode =>
    rw [fieldsOf, instrOf_mnemonic, ← (hasKey_iff.1 h).1, opcodeOf_eq m.format]
    exact toNat_ofNat_of_width (by cases m.format <;> decide) w
  | funct3 =>
    rw [fieldsOf, instrOf_mnemonic, funct3_of_hasKey h]
    exact toNat_ofNat_of_width (by cases m.format <;> decide) w
  | funct7 =>
    rw [fieldsOf, instrOf_mnemonic, funct7_of_hasKey h]
    exact toNat_ofNat_of_width (by cases m.format <;> decide) w
  | rd =>
    rw [fieldsOf, instrOf_rd h]
    exact toNat_ofNat_of_width (by cases m.format <;> decide) w
  | rs1 =>
    rw [fieldsOf, instrOf_rs1]
    exact toNat_ofNat_of_width (by cases m.format <;> decide) w
  | rs2 =>
    rw [fieldsOf, instrOf_rs2]
    exact toNat_ofNat_of_width (by cases m.format <;> decide) w
  | imm => rw [fieldsOf, instrOf_imm, instrOf_format, toNat_immOf_emod]

/-- R122 for one row: the word of a decoded instruction is the word it was decoded from. -/
theorem wordOf_instrOf {m : Mnemonic} {w : Word} (h : hasKey w (keyOf m) = true) : wordOf (instrOf m w) = w := by
  have hfields : fieldsOf (instrOf m w) = fun n => fieldAt (layout m.format) n w := funext (fieldsOf_instrOf h)
  rw [wordOf, instrOf_format, hfields, place_fieldAt, BitVec.ofNat_toNat, BitVec.setWidth_eq]

theorem operandsFit_instrOf (m : Mnemonic) (w : Word) : (instrOf m w).operandsFit = true := by
  rw [operandsFit_eq, instrOf_imm, instrOf_format]
  exact immFits_immOf m.format w

/-- The row `jal` is for words whose `rd` is not 0 (R108). -/
theorem linkNamed_instrOf {m : Mnemonic} {w : Word} (h : hasKey w (keyOf m) = true) :
    (instrOf m w).linkNamed = true := by
  cases m with
  | jal =>
    obtain ⟨-, -, -, hz⟩ := hasKey_iff.1 h
    have hrd : rdOf w ≠ 0 := by simpa using hz false rfl
    exact bne_iff_ne.2 hrd
  | _ => rfl

theorem encode_eq_some {i : Instr} {w : Word} : encode i = some w ↔ i.operandsFit = true ∧ wordOf i = w := by
  simp [encode]

theorem encode_of_is {w : Word} {i : Instr} (h : Is w i) : encode i = some w := by
  obtain ⟨m, hkey, rfl⟩ := is_iff.1 h
  exact encode_eq_some.2 ⟨operandsFit_instrOf m w, wordOf_instrOf hkey⟩

theorem wellFormed_of_is {w : Word} {i : Instr} (h : Is w i) : i.WellFormed := by
  obtain ⟨m, hkey, rfl⟩ := is_iff.1 h
  simp [Instr.WellFormed, Instr.wellFormed, operandsFit_instrOf, linkNamed_instrOf hkey]

/-- Settles O4, by the row the word was decoded with. -/
theorem decodedIsWellFormed : Obligations.DecodedIsWellFormed := by
  rintro w i ⟨raw, h⟩
  exact wellFormed_of_is (is_of_decode h)

/-- Settles O2: each column of the layout is written with the bits it was read with. -/
theorem encodeAfterDecode : Obligations.EncodeAfterDecode := by
  intro w h
  cases hd : decode w with
  | known i raw => exact encode_of_is (is_of_decode hd)
  | unknown raw => exact absurd ⟨raw, hd⟩ h

/-! ### Decode after encode -/

theorem fieldPresence (i : Instr) : Laws.FieldPresence.Statement i := by
  cases i <;> exact ⟨rfl, rfl, rfl, rfl⟩

theorem hasKey_wordOf {i : Instr} (h : i.linkNamed = true) : hasKey (wordOf i) (keyOf i.mnemonic) = true := by
  cases i with
  | jal rd imm => exact Laws.KeyPlaced.jal rd imm h
  | j imm => exact Laws.KeyPlaced.j imm h
  | add | sub | and | or | xor | sll | srl | mul | div | rem => exact Laws.KeyPlaced.hasKey_r rfl rfl
  | addi | lw | jalr | sw | beq | bne | blt | bge => exact Laws.KeyPlaced.hasKey_isb rfl rfl rfl

theorem fieldWidth_rd (f : Format) : fieldWidth (layout f) .rd = if f == .r || f == .i || f == .j then 5 else 0 := by
  cases f <;> rfl

theorem fieldWidth_rs1 (f : Format) : fieldWidth (layout f) .rs1 = if f != .j then 5 else 0 := by
  cases f <;> rfl

theorem fieldWidth_rs2 (f : Format) : fieldWidth (layout f) .rs2 = if f == .r || f == .s || f == .b then 5 else 0 := by
  cases f <;> rfl

theorem lowestBit_of_ne_imm (f : Format) {n : FieldName} (hn : n ≠ .imm) : lowestBit f n = 0 := by
  cases n with
  | imm => exact absurd rfl hn
  | _ => cases f <;> rfl

/-- A field that fits its columns is read back from the word (R102). -/
theorem fieldAt_wordOf {i : Instr} {n : FieldName} (hlt : fieldsOf i n < 2 ^ fieldWidth (layout i.format) n)
    (hlow : fieldsOf i n % 2 ^ lowestBit i.format n = 0) : fieldAt (layout i.format) n (wordOf i) = fieldsOf i n := by
  rw [wordOf, fieldAt_place, carried_eq_self hlt hlow]

/-- A register operand is read back from the word where the format has its field. -/
theorem regOf_wordOf {i : Instr} {n : FieldName} {r : RegIdx} (hn : n ≠ .imm) (hw : fieldWidth (layout i.format) n = 5)
    (hr : fieldsOf i n = r.toNat) : regOf i.format n (wordOf i) = r := by
  rw [regOf, fieldAt_wordOf (by rw [hr, hw]; exact r.isLt) (by rw [lowestBit_of_ne_imm _ hn]; exact Nat.mod_one _), hr,
    BitVec.ofNat_toNat, BitVec.setWidth_eq]

theorem regOf_rd_wordOf {i : Instr} {r : RegIdx} (h : i.rd? = some r) : regOf i.format .rd (wordOf i) = r := by
  obtain ⟨hrd, -, -, -⟩ := fieldPresence i
  exact regOf_wordOf nofun (by rw [fieldWidth_rd, ← hrd, h]; rfl) (by rw [fieldsOf, h]; rfl)

theorem regOf_rs1_wordOf {i : Instr} {r : RegIdx} (h : i.rs1? = some r) : regOf i.format .rs1 (wordOf i) = r := by
  obtain ⟨-, hrs1, -, -⟩ := fieldPresence i
  exact regOf_wordOf nofun (by rw [fieldWidth_rs1, ← hrs1, h]; rfl) (by rw [fieldsOf, h]; rfl)

theorem regOf_rs2_wordOf {i : Instr} {r : RegIdx} (h : i.rs2? = some r) : regOf i.format .rs2 (wordOf i) = r := by
  obtain ⟨-, -, hrs2, -⟩ := fieldPresence i
  exact regOf_wordOf nofun (by rw [fieldWidth_rs2, ← hrs2, h]; rfl) (by rw [fieldsOf, h]; rfl)

/-- The two's-complement form of an immediate that fits has no bit its columns do not carry (R99, R100). -/
theorem emod_low_of_immFits {f : Format} {v : Int} (h : f.immFits v = true) :
    (v % 2 ^ fieldWidth (layout f) .imm).toNat % 2 ^ lowestBit f .imm = 0 := by
  cases f with
  | r | i | s => exact Nat.mod_one _
  | b =>
    obtain ⟨-, -, heven⟩ := (immFits_iff (f := .b) nofun v).1 h
    simp only [lowestBit, fieldWidth_imm_b, Int.reducePow, pow_one] at heven ⊢
    omega
  | j =>
    obtain ⟨-, -, heven⟩ := (immFits_iff (f := .j) nofun v).1 h
    simp only [lowestBit, fieldWidth_imm_j, Int.reducePow, pow_one] at heven ⊢
    omega

theorem immOf_wordOf {i : Instr} (h : i.operandsFit = true) : immOf i.format (wordOf i) = i.imm?.getD 0 := by
  rw [operandsFit_eq] at h
  refine immOf_of_fieldAt h (fieldAt_wordOf ?_ (emod_low_of_immFits h))
  rw [fieldsOf, toNat_emod_two_pow]
  exact BitVec.isLt _

/-- An instruction is its own row's, with its operands. -/
theorem instrOf_eq {i : Instr} {w : Word} (hrd : ∀ r, i.rd? = some r → regOf i.format .rd w = r)
    (hrs1 : ∀ r, i.rs1? = some r → regOf i.format .rs1 w = r) (hrs2 : ∀ r, i.rs2? = some r → regOf i.format .rs2 w = r)
    (himm : immOf i.format w = i.imm?.getD 0) : instrOf i.mnemonic w = i := by
  cases i <;>
    simp only [Instr.format, Instr.mnemonic, Mnemonic.format, Instr.rd?, Instr.rs1?, Instr.rs2?, Instr.imm?,
      Option.some.injEq, forall_eq', Option.getD_some] at hrd hrs1 hrs2 himm <;>
    simp only [instrOf, Instr.mnemonic, Mnemonic.format, hrd, hrs1, hrs2, himm]

theorem instrOf_wordOf {i : Instr} (h : i.operandsFit = true) : instrOf i.mnemonic (wordOf i) = i :=
  instrOf_eq (fun _ => regOf_rd_wordOf) (fun _ => regOf_rs1_wordOf) (fun _ => regOf_rs2_wordOf) (immOf_wordOf h)

theorem is_wordOf {i : Instr} (h : i.WellFormed) : Is (wordOf i) i := by
  obtain ⟨hfit, hlink⟩ := Bool.and_eq_true_iff.1 h
  exact is_iff.2 ⟨i.mnemonic, hasKey_wordOf hlink, (instrOf_wordOf hfit).symm⟩

/-- The spelling `decode` gives of an instruction whose operands fit is well formed (R108, R115). -/
theorem wellFormed_asDecoded {i : Instr} (h : i.operandsFit = true) : i.asDecoded.WellFormed := by
  cases i with
  | jal rd imm =>
    by_cases hrd : rd = 0#5
    · subst hrd
      exact Bool.and_eq_true_iff.2 ⟨h, rfl⟩
    · simpa [Instr.asDecoded, hrd, Instr.WellFormed, Instr.wellFormed, Instr.linkNamed] using h
  | _ => exact Bool.and_eq_true_iff.2 ⟨h, rfl⟩

/-- An encoded word decodes to the decoded spelling of the instruction it encodes (R121). -/
theorem is_of_encode {i : Instr} {w : Word} (h : encode i = some w) : Is w i.asDecoded := by
  have hwf := wellFormed_asDecoded (encode_eq_some.1 h).1
  rw [← encode_asDecoded] at h
  obtain ⟨-, rfl⟩ := encode_eq_some.1 h
  exact is_wordOf hwf

/-- Settles O1: a well-formed instruction is its own decoded spelling, and both spellings of `j` have one word. -/
theorem decodeAfterEncode : Obligations.DecodeAfterEncode := by
  refine ⟨fun i h => ?_, fun imm h => ?_⟩
  · exact ⟨wordOf i, encode_eq_some.2 ⟨(Bool.and_eq_true_iff.1 h).1, rfl⟩, is_wordOf h⟩
  · have hj : encode (.j imm) = some (wordOf (.j imm)) := encode_eq_some.2 ⟨h, rfl⟩
    exact ⟨_, (encode_asDecoded (.jal 0 imm)).symm.trans hj, hj, is_of_encode hj⟩

/-- Settles O3: a word determines the instruction it decodes to, and is the encoding of it. -/
theorem codecIsInjective : Obligations.CodecIsInjective := by
  refine ⟨fun w w' i h h' => ?_, fun i i' w hwf hwf' h h' => ?_, fun i i' w h h' => ?_⟩
  · exact Option.some.inj ((encode_of_is h).symm.trans (encode_of_is h'))
  · rw [← asDecoded_of_wellFormed hwf, ← asDecoded_of_wellFormed hwf', is_unique (is_of_encode h) (is_of_encode h')]
  · exact is_unique (is_of_encode h) (is_of_encode h')

/-! ### What `encode` refuses -/

theorem encode_eq_none {i : Instr} : encode i = none ↔ i.operandsFit = false := by
  simp [encode]

theorem immFits12_eq_false {imm : Int} : immFits12 imm = false ↔ imm < -2048 ∨ 2047 < imm := by
  simp only [immFits12, Bool.and_eq_false_iff, decide_eq_false_iff_not]
  omega

theorem immFits13_eq_false {imm : Int} : immFits13 imm = false ↔ imm < -4096 ∨ 4094 < imm ∨ imm % 2 = 1 := by
  simp only [immFits13, Bool.and_eq_false_iff, decide_eq_false_iff_not]
  omega

theorem immFits21_eq_false {imm : Int} : immFits21 imm = false ↔ imm < -1048576 ∨ 1048574 < imm ∨ imm % 2 = 1 := by
  simp only [immFits21, Bool.and_eq_false_iff, decide_eq_false_iff_not]
  omega

/-- Settles O7, by the range of each format's immediate. -/
theorem encodeRefusesOutOfRange : Obligations.EncodeRefusesOutOfRange :=
  ⟨fun _ _ _ => encode_eq_none.trans immFits12_eq_false, fun _ _ _ => encode_eq_none.trans immFits12_eq_false,
    fun _ _ _ => encode_eq_none.trans immFits12_eq_false, fun _ _ _ => encode_eq_none.trans immFits12_eq_false,
    fun _ _ _ => encode_eq_none.trans immFits13_eq_false, fun _ _ _ => encode_eq_none.trans immFits13_eq_false,
    fun _ _ _ => encode_eq_none.trans immFits13_eq_false, fun _ _ _ => encode_eq_none.trans immFits13_eq_false,
    fun _ _ => encode_eq_none.trans immFits21_eq_false, fun _ => encode_eq_none.trans immFits21_eq_false, fun _ => rfl⟩

/-- Settles O8, by running the decoder on each word. -/
theorem specWordsDecode : Obligations.SpecWordsDecode := by
  unfold Obligations.SpecWordsDecode Is
  decide

/-! ### The Unknown words -/

/-- A property of all rows, row by row in the order of the table of R104. -/
theorem forall_mnemonic {p : Mnemonic → Prop} : (∀ m, p m) ↔
    p .add ∧ p .sub ∧ p .sll ∧ p .xor ∧ p .srl ∧ p .or ∧ p .and ∧ p .mul ∧ p .div ∧ p .rem ∧ p .addi ∧ p .lw ∧ p .jalr ∧
      p .sw ∧ p .beq ∧ p .bne ∧ p .blt ∧ p .bge ∧ p .jal ∧ p .j := by
  refine ⟨fun h => ?_, fun h m => ?_⟩
  · simp only [h, and_self]
  · cases m <;> simp only [h]

theorem no_branch_funct3_iff : ∀ f : BitVec 3,
    f ∈ [2#3, 3#3, 6#3, 7#3] ↔ f ≠ 0#3 ∧ f ≠ 1#3 ∧ f ≠ 4#3 ∧ f ≠ 5#3 := by
  decide

/-- Settles O6, by the opcode: one of the seven, whose rows then fix `funct3` and in R `funct7`, or none of them. -/
theorem unknownWordsExactly : Obligations.UnknownWordsExactly := by
  intro w
  rw [decode_eq_unknown, forall_mnemonic, no_branch_funct3_iff]
  simp only [hasKey, keyOf]
  generalize opcodeOf w = op, funct3Of w = f3, funct7Of w = f7
  by_cases hop : op ∈ [0x33#7, 0x13#7, 0x03#7, 0x67#7, 0x23#7, 0x63#7, 0x6F#7]
  · simp only [List.mem_cons, List.not_mem_nil, or_false] at hop
    rcases hop with rfl | rfl | rfl | rfl | rfl | rfl | rfl <;> simp
  · simp only [List.mem_cons, List.not_mem_nil, or_false, not_or] at hop
    simp [hop]

/-! ### The assembler -/

/-- A word of one line is the encoding of the line's instruction (R127). -/
theorem encode_of_wordOfTokens {labels : Labels} {addr : Nat} {name : List Char} {args : List (List Char)} {w : Word}
    (h : wordOfTokens labels addr name args = .ok w) : ∃ i, encode i = some w := by
  unfold wordOfTokens at h
  split at h
  · cases h
  · split at h
    · cases h
    · split at h <;> cases h
      exact ⟨_, ‹_›⟩

/-- Every word of pass 2 is the encoding of an instruction (R127). -/
theorem encode_of_mem_encodePass {labels : Labels} {lines : List SourceLine} {addr : Nat} {ws : List Word}
    (h : encodePass labels lines addr = .ok ws) : ∀ w ∈ ws, ∃ i, encode i = some w := by
  induction lines generalizing addr ws with
  | nil => cases h; simp
  | cons l lines ih =>
    unfold encodePass at h
    split at h
    · exact ih h
    · split at h
      · cases h
      · rename_i w hw
        cases hrest : encodePass labels lines (addr + 4) with
        | error e => rw [hrest] at h; cases h
        | ok ws' =>
          rw [hrest] at h
          cases h
          exact List.forall_mem_cons.2 ⟨encode_of_wordOfTokens hw, ih hrest⟩

/-- Settles O9: an assembled word is an encoding, and the instruction it decodes to encodes back to it. -/
theorem assembledWordsRoundTrip : Obligations.AssembledWordsRoundTrip := by
  intro source ws h w hw
  simp only [assembleText] at h
  split at h
  · cases h
  · obtain ⟨i, hi⟩ := encode_of_mem_encodePass h w hw
    exact ⟨i.asDecoded, is_of_encode hi, (encode_asDecoded i).trans hi⟩

end Sys2Proof
end

section
/-! PROOFS. An Unknown in the pipeline: no stage refuses, and each stage passes an Unknown on without effect. -/

namespace Sys2Proof.Machine

open Sys2Proof.Claims

/-! ### Refusals -/

theorem wbStage_not_refused (s : State) (r : Refusal) : wbStage s ≠ .refused r := by
  unfold wbStage noWriteBack
  split
  · nofun
  · split
    · nofun
    · exact exec_not_refused _ _ r

theorem memPass_not_refused (s : State) (r : Refusal) : memPass s ≠ .refused r := by
  unfold memPass
  split <;> nofun

theorem exZero_not_refused (s : State) (r : Refusal) : exZero s ≠ .refused r := by
  unfold exZero
  split <;> nofun

theorem memStage_not_refused (s : State) (r : Refusal) : memStage s ≠ .refused r := by
  unfold memStage
  split
  · exact memPass_not_refused s r
  · split
    · exact memPass_not_refused s r
    · exact exec_not_refused _ _ r

theorem exStage_not_refused (s : State) (r : Refusal) : exStage s ≠ .refused r := by
  unfold exStage
  split
  · exact exZero_not_refused s r
  · split
    · exact exZero_not_refused s r
    · exact exec_not_refused _ _ r

theorem idStage_not_refused (s : State) (r : Refusal) : idStage s ≠ .refused r := by
  unfold idStage idPlain
  split
  · nofun
  · split
    · nofun
    · exact exec_not_refused _ _ r

theorem commit_not_refused (s : State) (r : Refusal) : commit s ≠ .refused r := nofun

/-- Two stages in sequence refuse nothing where neither does. -/
theorem andThen_not_refused {o : StepOutcome} {f : State → StepOutcome} {r : Refusal} (ho : o ≠ .refused r)
    (hf : ∀ s, f s ≠ .refused r) : andThen o f ≠ .refused r := by
  rw [ne_eq, andThen_refused]
  rintro (h | ⟨s, -, h⟩)
  · exact ho h
  · exact hf s h

/-- Settles O47: no stage refuses, whatever its stage register holds. -/
theorem noStepIsRefused : Obligations.NoStepIsRefused := by
  intro s r
  unfold step cycle raise runCycle olderStages
  split
  · nofun
  · exact andThen_not_refused (andThen_not_refused (andThen_not_refused (andThen_not_refused (wbStage_not_refused s r)
      (memStage_not_refused · r)) (exStage_not_refused · r)) (idStage_not_refused · r)) (commit_not_refused · r)

/-! ### An Unknown in each stage -/

theorem memStage_of_unknown {s : State} {c : ExMemData} (hc : s.exMem.content = some c) (hu : IsUnknown c.instr) :
    memStage s = .next { s with memWb := ⟨s.exMem.pc, some ⟨c.instr, c.aluResult⟩⟩ } := by
  obtain ⟨raw, hr⟩ := hu
  simp only [memStage, memPass, hc, hr]

theorem exStage_of_unknown {s : State} {c : IdExData} (hc : s.idEx.content = some c) (hu : IsUnknown c.instr) :
    exStage s = .next (exResult s c 0#32) := by
  obtain ⟨raw, hr⟩ := hu
  simp only [exStage, exZero, hc, hr]

theorem idStage_of_unknown {s : State} {w : Word} (hc : s.ifId.content = some w) (hu : IsUnknown (decode w)) :
    idStage s = .next (fetch (issued s w none none)) := by
  obtain ⟨raw, hr⟩ := hu
  simp only [idStage, idPlain, issue, issued, hc, hr]

theorem rfWe_of_unknown {s : State} {c : MemWbData} (hc : s.memWb.content = some c) (hu : IsUnknown c.instr) :
    rfWe s = false := by
  obtain ⟨raw, hr⟩ := hu
  simp only [rfWe, hc, hr, knownInstr]

/-- An Unknown in IF_ID takes no transfer (R113). -/
theorem not_taken_of_unknown {s : State} {w : Word} (hc : s.ifId.content = some w) (hu : IsUnknown (decode w)) :
    ¬ ∃ target, Taken s target := by
  obtain ⟨raw, hr⟩ := hu
  rintro ⟨target, w', i, hw, hi, -⟩
  cases hc.symm.trans hw
  cases hr.symm.trans hi

/-- Settles O44: each stage passes an Unknown on, on the stage register the step began with. -/
theorem unknownIsInert : Obligations.UnknownIsInert := by
  intro s t h
  have hregs := (step_effect h).regs
  obtain ⟨-, s1, s2, s3, s4, h1, h2, h3, h4, ht⟩ := step_next h
  have hwb := wbStage_next h1
  have hidEx : s2.idEx = s.idEx := by rw [memStage_next h2, hwb]
  have hexMem : s1.exMem = s.exMem := by rw [hwb]
  have hmem : s1.mem = s.mem := by rw [hwb]
  have hifId : s3.ifId = s.ifId := by rw [olderStages_frame h1 h2 h3]
  have ft := step_fields h1 h2 h3 h4 ht
  refine ⟨fun w hc hu => ⟨?_, not_taken_of_unknown hc hu⟩, fun c hc hu => ?_, fun c hc hu => ?_,
    fun c hc hu => ?_⟩
  · rw [← hifId] at hc ⊢
    cases (idStage_of_unknown hc hu).symm.trans h4
    rw [ft]
    exact fetch_idEx _
  · rw [← hidEx] at hc ⊢
    cases (exStage_of_unknown hc hu).symm.trans h3
    rw [ft]
    rfl
  · rw [← hexMem] at hc ⊢
    cases (memStage_of_unknown hc hu).symm.trans h2
    rw [ft]
    exact ⟨rfl, hmem⟩
  · rw [hregs, rfWe_of_unknown hc hu]
    rfl

end Sys2Proof.Machine
end

section
/-! PROOFS. The ALU: the signed reading of a word and the way back, the shift amount, and when an operation fails. -/

namespace Sys2Proof.Machine

/-! ### The two readings of a word -/

/-- The bits of a word are those of its signed reading (R11). -/
@[simp] theorem u32_signed (v : Word) : u32 (signed v) = v := BitVec.ofInt_toInt

theorem u32_add (x y : Int) : u32 (x + y) = u32 x + u32 y := BitVec.ofInt_add x y

theorem u32_sub (x y : Int) : u32 (x - y) = u32 x - u32 y := by
  rw [Int.sub_eq_add_neg, u32_add, u32, u32, u32, BitVec.ofInt_neg, BitVec.sub_eq_add_neg]

theorem u32_mul (x y : Int) : u32 (x * y) = u32 x * u32 y := BitVec.ofInt_mul x y

/-- The signed reading lies in the two's-complement range of 32 bits (R155). -/
theorem signed_range (v : Word) : -2 ^ 31 ≤ signed v ∧ signed v ≤ 2 ^ 31 - 1 :=
  ⟨BitVec.le_toInt v, Int.le_sub_one_of_lt BitVec.toInt_lt⟩

/-- The signed reading by the sign bit (R155). -/
theorem signed_eq (v : Word) :
    signed v = if v.toNat < 2 ^ 31 then (v.toNat : Int) else (v.toNat : Int) - 2 ^ 32 := by
  rw [signed, BitVec.toInt_eq_toNat_cond]
  exact if_congr (by omega) rfl rfl

/-! ### The operations -/

/-- A word difference is the difference of the numbers, one turn of 2^32 up where it would be negative (R143). -/
theorem toNat_sub_cond (a b : Word) :
    (a - b).toNat = if b.toNat ≤ a.toNat then a.toNat - b.toNat else a.toNat + 2 ^ 32 - b.toNat := by
  rw [BitVec.toNat_sub]
  split <;> omega

/-- The low 5 bits of `b` are its remainder by 32 (R153, R154). -/
theorem shiftAmount_eq (b : Word) : shiftAmount b = b.toNat % 32 := by
  rw [shiftAmount, BitVec.extractLsb'_toNat, Nat.shiftRight_zero]

theorem operate_div_of_ne (a : Word) {b : Word} (hb : b ≠ 0#32) : operate .div a b = .value (a.udiv b) := if_neg hb

theorem operate_rem_of_ne (a : Word) {b : Word} (hb : b ≠ 0#32) : operate .rem a b = .value (a.umod b) := if_neg hb

/-- The only failure of the ALU: DIV or REM with a zero divisor (R140, R150, R151). -/
theorem operate_eq_divisionByZero_iff (op : AluOp) (a b : Word) :
    operate op a b = .divisionByZero ↔ (op = .div ∨ op = .rem) ∧ b = 0#32 := by
  cases op <;> simp [operate]

/-- The ports of an operation that gives a value (R140). -/
theorem aluPorts_of_value {op : AluOp} {a b r : Word} (h : operate op a b = .value r) : aluPorts op a b = ⟨r, false⟩ := by
  simp [aluPorts, h]

/-- The failure port of an operation that fails (R140); `result` is then free (U15). -/
theorem aluPorts_divByZero_of_fail {op : AluOp} {a b : Word} (h : operate op a b = .divisionByZero) :
    (aluPorts op a b).divByZero = true := by
  simp [aluPorts, h]

/-! ### The statements -/

/-- Settles O10: the word operations wrap, and `u32` carries the sum, difference and product of the signed readings to
those of the words. -/
theorem aluAddSubMul : Obligations.AluAddSubMul := by
  intro a b
  refine ⟨⟨a + b, rfl, BitVec.toNat_add a b, ?_⟩, ⟨a - b, rfl, toNat_sub_cond a b, ?_⟩,
    ⟨a * b, rfl, BitVec.toNat_mul a b, ?_⟩⟩
  · rw [u32_add, u32_signed, u32_signed]
  · rw [u32_sub, u32_signed, u32_signed]
  · rw [u32_mul, u32_signed, u32_signed]

/-- Settles O11: each operation is the bit-vector operation, read at bit `k`. -/
theorem aluBitwise : Obligations.AluBitwise := by
  intro a b k hk
  refine ⟨⟨a &&& b, rfl, BitVec.getLsbD_and⟩, ⟨a ||| b, rfl, BitVec.getLsbD_or⟩, ⟨a ^^^ b, rfl, ?_⟩,
    ⟨~~~(a ||| b), rfl, ?_⟩, ⟨~~~a, rfl, ?_⟩⟩
  · rw [BitVec.getLsbD_xor, ← Bool.bne_eq_xor]
  · simp [hk]
  · simp [hk]

/-- Settles O12: the signed reading is pinned first, so the comparison of SLT is the spec's. -/
theorem aluSignedCompare : Obligations.AluSignedCompare :=
  ⟨fun v => ⟨signed_eq v, signed_range v⟩, fun _ _ => rfl⟩

/-- Settles O13: a non-zero divisor gives the quotient and remainder of the division of naturals. -/
theorem aluDivRem : Obligations.AluDivRem := by
  intro a b
  have hzero : b.toNat = 0 ↔ b = 0#32 := BitVec.toNat_inj (y := 0#32)
  rw [ne_eq, hzero]
  refine ⟨fun hb => ⟨?_, ?_⟩, fun hb => ⟨a.udiv b, a.umod b, operate_div_of_ne a hb, operate_rem_of_ne a hb,
    BitVec.toNat_udiv, ?_, ?_⟩⟩
  · exact (operate_eq_divisionByZero_iff _ a b).2 ⟨.inl rfl, hb⟩
  · exact (operate_eq_divisionByZero_iff _ a b).2 ⟨.inr rfl, hb⟩
  · exact BitVec.toNat_umod.trans_lt (Nat.mod_lt _ (Nat.pos_of_ne_zero (mt hzero.1 hb)))
  · have hq : (a.udiv b).toNat = a.toNat / b.toNat := BitVec.toNat_udiv
    have hr : (a.umod b).toNat = a.toNat % b.toNat := BitVec.toNat_umod
    rw [hq, hr, Nat.div_add_mod]

/-- Settles O14: a shift by the amount multiplies or divides by its power of two. -/
theorem aluShifts : Obligations.AluShifts := by
  intro a b
  refine ⟨⟨_, rfl, ?_⟩, ⟨_, rfl, ?_⟩⟩
  · rw [BitVec.toNat_shiftLeft, Nat.shiftLeft_eq, shiftAmount_eq]
  · rw [BitVec.toNat_ushiftRight, Nat.shiftRight_eq_div_pow, shiftAmount_eq]

/-- Settles O15: the port shows whether the operation fails, which `operate_eq_divisionByZero_iff` says. -/
theorem aluPortsReportZeroDivisor : Obligations.AluPortsReportZeroDivisor := by
  intro op a b
  rw [← operate_eq_divisionByZero_iff op a b]
  cases h : operate op a b with
  | value r => simp [aluPorts_of_value h]
  | divisionByZero => simp [aluPorts_divByZero_of_fail h]

end Sys2Proof.Machine
end

section
/-! PROOFS. The stages of an instruction run forward: which operation each stage is, the value EX computes and the value MEM
delivers, and with them the R-format instructions and the architectural effect of every register-writing instruction. The
key lemma is `resultOf_eq`: the result the spec gives an instruction is the value of EX, taken through MEM. -/

namespace Sys2Proof.Machine

open Sys2Proof.Claims

/-! ### The value of EX -/

/-- What the ALU answers, as a value where it gives one. -/
def AluOutcome.toOption : AluOutcome → Option Word
  | .value r => some r
  | .divisionByZero => none

theorem AluOutcome.toOption_eq_some {o : AluOutcome} {r : Word} : o.toOption = some r ↔ o = .value r := by
  cases o <;> simp [AluOutcome.toOption]

/-- The result EX computes for an instruction from its address and its operand values; none where the ALU fails (R231 to
R234). -/
def exValue (i : Instr) (pcOfInstr a b : Word) : Option Word :=
  match aluOpOf i.mnemonic with
  | some op => (operate op a (secondOperand i.imm? b)).toOption
  | none => some (if i.format = .b then 0#32 else linkValue pcOfInstr)

/-- In EX an instruction drives the ALU with the operation of its mnemonic, or, where it has none, gives 0 for a branch and
the link value for a jump (R231, R233, R234). -/
theorem exec_ex_cases (i : Instr) {s : State} (hs : s.stage = .ex) :
    (∃ op, aluOpOf i.mnemonic = some op ∧ exec i s = exAlu op i.imm? s) ∨
    (aluOpOf i.mnemonic = none ∧ i.format = .b ∧ exec i s = exZero s) ∨
    (aluOpOf i.mnemonic = none ∧ i.format ≠ .b ∧ exec i s = exLink s) := by
  cases s; cases hs
  cases i with
  | beq | bne | blt | bge => exact .inr (.inl ⟨rfl, rfl, rfl⟩)
  | jal | j | jalr => exact .inr (.inr ⟨rfl, nofun, rfl⟩)
  | _ => exact .inl ⟨_, rfl, rfl⟩

/-- EX completes with the value of EX, where there is one. -/
theorem exec_ex_of_exValue {i : Instr} {s : State} {c : IdExData} {r : Word} (hs : s.stage = .ex)
    (hc : s.idEx.content = some c) (hr : exValue i s.idEx.pc c.rs1Val c.rs2Val = some r) :
    exec i s = .next (exResult s c r) := by
  unfold exValue at hr
  rcases exec_ex_cases i hs with ⟨op, hop, he⟩ | ⟨hop, hf, he⟩ | ⟨hop, hf, he⟩ <;> rw [hop] at hr <;> rw [he]
  · simp [exAlu, hc, AluOutcome.toOption_eq_some.1 hr]
  · cases hr; simp [exZero, hc, hf]
  · cases hr; simp [exLink, hc, hf]

/-! ### The value of MEM -/

/-- The value an instruction that stores nothing takes through MEM: the word at the address for `lw`, none where that is out
of bounds, and else the result of EX (R227, R229). -/
def memValue (i : Instr) (capacity : Nat) (m : Memory) (r : Word) : Option Word :=
  if i.mnemonic = .lw then readWord capacity m r.toNat else some r

theorem exec_mem_of_lw {i : Instr} {s : State} (hi : i.mnemonic = .lw) (hs : s.stage = .mem) : exec i s = memLoad s := by
  cases i with
  | lw rd rs1 imm => exact exec_lw_mem rd rs1 imm hs
  | _ => cases hi

/-- MEM of an instruction that stores nothing hands its value to WB, where there is one. -/
theorem exec_mem_of_memValue {i : Instr} {s : State} {c : ExMemData} {v : Word} (hi : i.mnemonic ≠ .sw)
    (hs : s.stage = .mem) (hc : s.exMem.content = some c) (hv : memValue i s.dmemBytes s.mem c.aluResult = some v) :
    exec i s = .next { s with memWb := ⟨s.exMem.pc, some ⟨c.instr, v⟩⟩ } := by
  unfold memValue at hv
  split at hv
  · rw [exec_mem_of_lw ‹_› hs]
    simp [memLoad, hc, hv]
  · cases hv
    rcases exec_mem_cases i hs with he | ⟨hlw, -⟩ | ⟨hsw, -⟩
    · rw [he]; simp [memPass, hc]
    · exact absurd hlw ‹_›
    · exact absurd hsw hi

/-! ### The stages, in the words of the statements -/

theorem idTransfer_not_taken {a b : Option RegIdx} {taken : Word → Word → Bool} {target : Word → Word → Word} {s : State}
    {w : Word} (hw : s.ifId.content = some w) (h : taken (sourceValue s a) (sourceValue s b) = false) :
    idTransfer a b taken target s = .next (fetch (issued s w a b)) := by
  simp [idTransfer, issue, issued, hw, h]

theorem idTransfer_taken {a b : Option RegIdx} {taken : Word → Word → Bool} {target : Word → Word → Word} {s : State}
    {w : Word} (hw : s.ifId.content = some w) (h : taken (sourceValue s a) (sourceValue s b) = true)
    (hal : (target s.ifId.pc (sourceValue s a)).toNat % 4 = 0) :
    idTransfer a b taken target s = .next (redirect (issued s w a b) (target s.ifId.pc (sourceValue s a))) := by
  simp [idTransfer, issue, issued, targetAligned, hw, h, hal]

/-- An instruction that takes no transfer reads its sources and lets IF fetch (R238, R243). -/
theorem idReads_of_not_transfer {i : Instr} (h : ∀ a b, syncTaken i a b = false) : IdReads i i.rs1? i.rs2? :=
  fun _ _ hs hw => (exec_id_eq i hs).trans (idTransfer_not_taken hw (h _ _))

theorem exGives_of_exValue {i : Instr} {ok : Word → Word → Prop} {f : Word → Word → Word → Word}
    (h : ∀ pc a b, ok a b → exValue i pc a b = some (f pc a b)) : ExGives i ok f :=
  fun _ _ hs hc hok => exec_ex_of_exValue hs hc (h _ _ _ hok)

theorem memPasses_of_mnemonic {i : Instr} (hlw : i.mnemonic ≠ .lw) (hsw : i.mnemonic ≠ .sw) : MemPasses i :=
  fun _ _ hs hc => exec_mem_of_memValue hsw hs hc (if_neg hlw)

/-- WB of an instruction with a destination writes it (R223). -/
theorem wbWrites_of_rd {i : Instr} {rd : RegIdx} (h : i.rd? = some rd) : WbWrites i rd := by
  intro s c hs hc
  rcases exec_wb_cases i hs with ⟨_, hrd, -, he⟩ | ⟨hnone, -⟩
  · cases h.symm.trans hrd
    rw [he, writeBack, hc]
    rfl
  · cases h.symm.trans hnone

/-! ### Results as numbers -/

@[simp] theorem u32_toNat (v : Word) : u32 v.toNat = v := by
  rw [u32, BitVec.ofInt_natCast, BitVec.ofNat_toNat, BitVec.setWidth_eq]

theorem ofInt_add_toNat (a : Word) (imm : Int) : BitVec.ofInt 32 (a.toNat + imm) = a + u32 imm := by
  change u32 _ = _
  rw [u32_add, u32_toNat]

theorem linkValue_eq_ofNat (pc : Word) : linkValue pc = BitVec.ofNat 32 (pc.toNat + 4) := by
  rw [linkValue_eq, BitVec.ofNat_add, BitVec.ofNat_toNat, BitVec.setWidth_eq]

theorem operate_add_eq (a b : Word) : operate .add a b = .value (BitVec.ofNat 32 (a.toNat + b.toNat)) :=
  congrArg AluOutcome.value (by simp [BitVec.ofNat_add])

theorem operate_sub_eq (a b : Word) : operate .sub a b = .value (BitVec.ofInt 32 (a.toNat - b.toNat)) :=
  congrArg AluOutcome.value ((u32_sub _ _).trans (by simp)).symm

theorem operate_mul_eq (a b : Word) : operate .mul a b = .value (BitVec.ofNat 32 (a.toNat * b.toNat)) :=
  congrArg AluOutcome.value (by simp [BitVec.ofNat_mul])

theorem operate_sll_eq (a b : Word) : operate .sll a b = .value (BitVec.ofNat 32 (a.toNat * 2 ^ (b.toNat % 32))) :=
  congrArg AluOutcome.value (BitVec.eq_of_toNat_eq (by
    rw [shiftAmount_eq, BitVec.toNat_shiftLeft, Nat.shiftLeft_eq, BitVec.toNat_ofNat]))

theorem operate_srl_eq (a b : Word) : operate .srl a b = .value (BitVec.ofNat 32 (a.toNat / 2 ^ (b.toNat % 32))) :=
  congrArg AluOutcome.value (by
    rw [shiftAmount_eq, ← Nat.shiftRight_eq_div_pow, ← BitVec.toNat_ushiftRight, BitVec.ofNat_toNat, BitVec.setWidth_eq])

theorem operate_div_eq (a : Word) {b : Word} (hb : b ≠ 0#32) :
    operate .div a b = .value (BitVec.ofNat 32 (a.toNat / b.toNat)) := by
  rw [operate_div_of_ne a hb, ← BitVec.toNat_udiv, BitVec.ofNat_toNat, BitVec.setWidth_eq]
  rfl

theorem operate_rem_eq (a : Word) {b : Word} (hb : b ≠ 0#32) :
    operate .rem a b = .value (BitVec.ofNat 32 (a.toNat % b.toNat)) := by
  rw [operate_rem_of_ne a hb, ← BitVec.toNat_umod, BitVec.ofNat_toNat, BitVec.setWidth_eq]
  rfl

theorem toOption_operate_div (a b : Word) :
    (operate .div a b).toOption = if b = 0#32 then none else some (BitVec.ofNat 32 (a.toNat / b.toNat)) := by
  split
  · subst b; rfl
  · rw [operate_div_eq a ‹_›]; rfl

theorem toOption_operate_rem (a b : Word) :
    (operate .rem a b).toOption = if b = 0#32 then none else some (BitVec.ofNat 32 (a.toNat % b.toNat)) := by
  split
  · subst b; rfl
  · rw [operate_rem_eq a ‹_›]; rfl

/-! ### The R-format instructions -/

/-- What format R leaves out: an immediate, a transfer and an access to memory (R106, R211, R229). -/
theorem r_format_facts {i : Instr} (h : i.format = .r) :
    i.imm? = none ∧ (∀ a b, syncTaken i a b = false) ∧ i.mnemonic ≠ .lw ∧ i.mnemonic ≠ .sw := by
  cases i with
  | add | sub | and | or | xor | sll | srl | mul | div | rem => exact ⟨rfl, fun _ _ => rfl, nofun, nofun⟩
  | _ => cases h

theorem exValue_of_r {i : Instr} (h : i.format = .r) {op : AluOp} (hop : aluOpOf i.mnemonic = some op) {a b r : Word}
    (hr : operate op a b = .value r) (pc : Word) : exValue i pc a b = some r := by
  obtain ⟨himm, -⟩ := r_format_facts h
  simp [exValue, hop, himm, secondOperand, hr, AluOutcome.toOption]

/-- The four stages of an R-format instruction are those of its ALU operation. -/
theorem r_format_stages {i : Instr} (h : i.format = .r) {op : AluOp} (hop : aluOpOf i.mnemonic = some op)
    {rd rs1 rs2 : RegIdx} (hrd : i.rd? = some rd) (hrs1 : i.rs1? = some rs1) (hrs2 : i.rs2? = some rs2)
    {ok : Word → Word → Prop} {f : Word → Word → Word} (hf : ∀ a b, ok a b → operate op a b = .value (f a b)) :
    IdReads i (some rs1) (some rs2) ∧ ExGives i ok (fun _ a b => f a b) ∧ MemPasses i ∧ WbWrites i rd := by
  obtain ⟨-, htaken, hlw, hsw⟩ := r_format_facts h
  refine ⟨hrs1 ▸ hrs2 ▸ idReads_of_not_transfer htaken, ?_, memPasses_of_mnemonic hlw hsw, wbWrites_of_rd hrd⟩
  exact exGives_of_exValue fun pc a b hab => exValue_of_r h hop (hf a b hab) pc

/-- Settles O21: each of the eight drives the ALU operation of its name, whose value is the number the spec states. -/
theorem rFormatComplete : Obligations.RFormatComplete :=
  ⟨fun _ _ _ => r_format_stages rfl rfl rfl rfl rfl fun a b _ => operate_add_eq a b,
    fun _ _ _ => r_format_stages rfl rfl rfl rfl rfl fun a b _ => operate_sub_eq a b,
    fun _ _ _ => r_format_stages rfl rfl rfl rfl rfl fun _ _ _ => rfl,
    fun _ _ _ => r_format_stages rfl rfl rfl rfl rfl fun _ _ _ => rfl,
    fun _ _ _ => r_format_stages rfl rfl rfl rfl rfl fun _ _ _ => rfl,
    fun _ _ _ => r_format_stages rfl rfl rfl rfl rfl fun a b _ => operate_sll_eq a b,
    fun _ _ _ => r_format_stages rfl rfl rfl rfl rfl fun a b _ => operate_srl_eq a b,
    fun _ _ _ => r_format_stages rfl rfl rfl rfl rfl fun a b _ => operate_mul_eq a b⟩

/-- Settles O22: a divisor value other than 0 gives the unsigned quotient and remainder. -/
theorem divRemComplete : Obligations.DivRemComplete :=
  ⟨fun _ _ _ => r_format_stages rfl rfl rfl rfl rfl fun a _ hb => operate_div_eq a (mt (congrArg BitVec.toNat) hb),
    fun _ _ _ => r_format_stages rfl rfl rfl rfl rfl fun a _ hb => operate_rem_eq a (mt (congrArg BitVec.toNat) hb)⟩

/-! ### The architectural effect -/

/-- The result the spec gives an instruction that writes a register is the value of EX, taken through MEM. -/
theorem resultOf_eq {i : Instr} {rd : RegIdx} (h : i.rd? = some rd) (pc a b : Word) (capacity : Nat) (m : Memory) :
    resultOf i pc a b capacity m = (exValue i pc a b).bind (memValue i capacity m) := by
  cases i with
  | add | sub | and | or | xor | mul => rfl
  | sll | srl => rw [resultOf, ← shiftAmount_eq]; rfl
  | div => rw [resultOf, ← toOption_operate_div]; exact (Option.bind_fun_some _).symm
  | rem => rw [resultOf, ← toOption_operate_rem]; exact (Option.bind_fun_some _).symm
  | addi | lw => rw [resultOf, ofInt_add_toNat]; rfl
  | jalr | jal | j => rw [resultOf, ← linkValue_eq_ofNat]; rfl
  | sw | beq | bne | blt | bge => cases h

/-- ID of an instruction that does not fault replaces `pc` and IF_ID, and ID_EX by its record and operand values (R238 to
R246). -/
theorem exec_id_completes {i : Instr} {s : State} {w : Word} (hs : s.stage = .id) (hw : s.ifId.content = some w)
    (hal : syncTaken i (sourceValue s i.rs1?) (sourceValue s i.rs2?) = true →
      (syncTarget i s.ifId.pc (sourceValue s i.rs1?)).toNat % 4 = 0) :
    ∃ pc' ifId', exec i s = .next { s with
      pc := pc'
      ifId := ifId'
      idEx := ⟨s.ifId.pc, some ⟨decode w, sourceValue s i.rs1?, sourceValue s i.rs2?⟩⟩ } := by
  rw [exec_id_eq i hs]
  cases htaken : syncTaken i (sourceValue s i.rs1?) (sourceValue s i.rs2?) with
  | false => rw [idTransfer_not_taken hw htaken, fetch_frame]; exact ⟨_, _, rfl⟩
  | true => exact ⟨_, _, idTransfer_taken hw htaken (hal htaken)⟩

theorem mnemonic_ne_sw_of_rd {i : Instr} {rd : RegIdx} (h : i.rd? = some rd) : i.mnemonic ≠ .sw := by
  cases i with
  | sw => cases h
  | _ => nofun

/-- Settles O31: the four stages are run one after the other, and what WB writes is the value of EX taken through MEM. -/
theorem architecturalResults : Obligations.ArchitecturalResults := by
  intro i s rd v hif hrd hres hal
  rw [resultOf_eq hrd, Option.bind_eq_some_iff] at hres
  obtain ⟨r, hex, hmem⟩ := hres
  obtain ⟨w, hw⟩ := Option.ne_none_iff_exists'.1 hif
  obtain ⟨pc', ifId', hid⟩ := exec_id_completes (s := atStage .id s) rfl hw hal
  refine ⟨_, andThen_next.2 ⟨_, andThen_next.2 ⟨_, andThen_next.2 ⟨_, hid, exec_ex_of_exValue rfl rfl hex⟩,
    exec_mem_of_memValue (mnemonic_ne_sw_of_rd hrd) rfl rfl hmem⟩, wbWrites_of_rd hrd _ _ rfl rfl⟩, rfl, fun k => ?_⟩
  exact readLane_writeLane s.regs k rd v

end Sys2Proof.Machine
end

section
/-! PROOFS. `addi`, `lw` and `sw` in their stages, and the store a `sw` leaves in memory. The key lemma is
`exGives_immediate_sum`: what EX gives the three is the `rs1` value plus the immediate (R190); the rest is the stage
lemmas above and the MEM of a store. -/

namespace Sys2Proof.Machine

open Sys2Proof.Claims

/-! ### The stages `addi`, `lw` and `sw` do not share with the R format -/

/-- An instruction that drives ADD and has an immediate computes the sum of its `rs1` value and the immediate in EX
(R190, R232). -/
theorem exGives_immediate_sum {i : Instr} {imm : Int} (hop : aluOpOf i.mnemonic = some .add)
    (himm : i.imm? = some imm) : ExGives i (fun _ _ => True) (fun _ a _ => BitVec.ofInt 32 (a.toNat + imm)) :=
  exGives_of_exValue fun _ _ _ _ => by
    rw [exValue, hop, himm, ofInt_add_toNat]
    rfl

/-- MEM of a `sw` whose word fits stores the carried `rs2` value and notes the address (R228). -/
theorem exec_sw_mem_of_writeWord (rs1 rs2 : RegIdx) (imm : Int) {s : State} {c : ExMemData} {m : Memory}
    (hs : s.stage = .mem) (hc : s.exMem.content = some c)
    (hm : writeWord s.dmemBytes s.mem c.aluResult.toNat c.rs2Val = some m) :
    exec (.sw rs1 rs2 imm) s = .next { s with
      mem := m
      touched := noteStore s.touched c.aluResult.toNat
      memWb := ⟨s.exMem.pc, some ⟨c.instr, c.aluResult⟩⟩ } := by
  rw [exec_sw_mem rs1 rs2 imm hs]
  simp [memStore, hc, hm]

/-- WB of an instruction without a destination changes nothing (R224). -/
theorem wbKeeps_of_no_rd {i : Instr} (h : i.rd? = none) : WbKeeps i := by
  intro s hs
  rcases exec_wb_cases i hs with ⟨_, hrd, -⟩ | ⟨-, -, he⟩
  · cases h.symm.trans hrd
  · exact he

/-! ### The statements -/

/-- Settles O24: ID, MEM and WB are those of every instruction that takes no transfer, accesses no memory and has a
destination; EX is the sum. -/
theorem addiComplete : Obligations.AddiComplete := fun _ _ _ =>
  ⟨idReads_of_not_transfer fun _ _ => rfl, exGives_immediate_sum rfl rfl, memPasses_of_mnemonic nofun nofun,
    wbWrites_of_rd rfl⟩

/-- Settles O25: as `addi`, but the value MEM hands on is the word at the sum. -/
theorem lwComplete : Obligations.LwComplete := fun _ _ _ =>
  ⟨idReads_of_not_transfer fun _ _ => rfl, exGives_immediate_sum rfl rfl,
    fun _ _ _ hs hc hv => exec_mem_of_memValue nofun hs hc ((if_pos rfl).trans hv), wbWrites_of_rd rfl⟩

/-- Settles O26: MEM stores, and without a destination WB keeps the registers. -/
theorem swComplete : Obligations.SwComplete := fun rs1 rs2 imm =>
  ⟨idReads_of_not_transfer fun _ _ => rfl, exGives_immediate_sum rfl rfl,
    fun _ _ _ => exec_sw_mem_of_writeWord rs1 rs2 imm, wbKeeps_of_no_rd rfl⟩

/-- Settles O32: the stages of O26 are run one after the other; the memory they leave is the word write of MEM, which
reads back at its address and leaves the bytes outside it alone. -/
theorem architecturalStore : Obligations.ArchitecturalStore := by
  intro rs1 rs2 imm s hif hwf hbound
  obtain ⟨w, hw⟩ := Option.ne_none_iff_exists'.1 hif
  obtain ⟨pc', ifId', hid⟩ := exec_id_completes (i := .sw rs1 rs2 imm) (s := atStage .id s) rfl hw nofun
  obtain ⟨-, hex, hmem, hwb⟩ := swComplete rs1 rs2 imm
  have hstore := writeWord_of_le s.mem hbound (readLane s.regs rs2)
  refine ⟨_, andThen_next.2 ⟨_, andThen_next.2 ⟨_, andThen_next.2 ⟨_, hid, hex _ _ rfl rfl trivial⟩,
    hmem _ _ _ rfl rfl hstore⟩, hwb _ rfl⟩, rfl, ?_, fun a ha => ?_⟩
  · exact (readWord_of_le _ hbound).trans (congrArg some (wordAt_setWord_same hwf _ _))
  · exact get_setWord_outside s.mem ha _

end Sys2Proof.Machine
end

section
/-! PROOFS. The control transfers in their stages. A transfer is known by when it is taken and where it goes
(`DecidesBy`); ID of every transfer, faulting or not, follows from that, and EX, MEM and WB from its driving no ALU. -/

namespace Sys2Proof.Machine

open Sys2Proof.Claims

/-! ### Targets as numbers -/

/-- A word with bit 0 cleared is the word less its remainder by 2. -/
theorem toNat_and_clear_bit_zero (w : Word) : (w &&& 0xFFFFFFFE#32).toNat = w.toNat - w.toNat % 2 := by
  have hhigh : (w.toNat &&& 0xFFFFFFFE) / 2 = w.toNat / 2 := by
    rw [Nat.and_div_two]
    exact Nat.and_two_pow_sub_one_of_lt_two_pow (n := 31) (by omega)
  have hlow : (w.toNat &&& 0xFFFFFFFE) % 2 = 0 := by
    rw [Nat.and_mod_two_pow (n := 1)]
    exact Nat.and_zero _
  have hmask : (0xFFFFFFFE#32).toNat = 0xFFFFFFFE := rfl
  rw [BitVec.toNat_and, hmask]
  omega

/-- R207: clearing bit 0 of the wrapped sum takes the sum's remainder by 2 off it. -/
theorem indirectTarget_eq_indirect (pc a : Word) (imm : Int) : indirectTarget a imm = indirect imm pc a := by
  apply BitVec.eq_of_toNat_eq
  rw [indirectTarget, indirect, toNat_and_clear_bit_zero, u32, BitVec.toNat_ofInt, BitVec.toNat_ofInt]
  omega

/-! ### ID of a transfer -/

/-- The transfer is taken exactly where `takes` holds of its operand values, and then goes to `target` (R240). -/
structure DecidesBy (i : Instr) (takes : Word → Word → Prop) (target : Word → Word → Word) : Prop where
  taken : ∀ a b, syncTaken i a b = true ↔ takes a b
  target : ∀ pc a, syncTarget i pc a = target pc a

theorem idTransfer_misaligned {a b : Option RegIdx} {taken : Word → Word → Bool} {target : Word → Word → Word} {s : State}
    {w : Word} (hw : s.ifId.content = some w) (h : taken (sourceValue s a) (sourceValue s b) = true)
    (hmis : (target s.ifId.pc (sourceValue s a)).toNat % 4 ≠ 0) :
    idTransfer a b taken target s = .fault (.misalignedTarget (target s.ifId.pc (sourceValue s a)) s.ifId.pc) := by
  simp [idTransfer, targetAligned, raise, hw, h, hmis]

/-- Not taken, or taken to a multiple of 4, a transfer completes in ID (R242, R243, R245). -/
theorem DecidesBy.idTransfers {i : Instr} {takes : Word → Word → Prop} {target : Word → Word → Word}
    (h : DecidesBy i takes target) : IdTransfers i i.rs1? i.rs2? takes target := by
  intro s w hs hw
  rw [exec_id_eq i hs, ← h.taken, ← h.target]
  exact ⟨fun hn => idTransfer_not_taken hw (Bool.eq_false_iff.2 hn), fun ht hal => idTransfer_taken hw ht hal⟩

/-- Taken to an address that is no multiple of 4, a transfer raises MisalignedTarget in ID (R208, R241). -/
theorem DecidesBy.idTraps {i : Instr} {takes : Word → Word → Prop} {target : Word → Word → Word}
    (h : DecidesBy i takes target) : IdTraps i i.rs1? i.rs2? takes target := by
  intro s w hs hw
  rw [exec_id_eq i hs, ← h.taken, ← h.target]
  exact fun ht hmis => idTransfer_misaligned hw ht hmis

theorem decidesBy_beq (rs1 rs2 : RegIdx) (imm : Int) :
    DecidesBy (.beq rs1 rs2 imm) (fun a b => a = b) (relative imm) :=
  ⟨fun _ _ => beq_iff_eq, fun _ _ => rfl⟩

theorem decidesBy_bne (rs1 rs2 : RegIdx) (imm : Int) :
    DecidesBy (.bne rs1 rs2 imm) (fun a b => a ≠ b) (relative imm) :=
  ⟨fun _ _ => bne_iff_ne, fun _ _ => rfl⟩

theorem decidesBy_blt (rs1 rs2 : RegIdx) (imm : Int) :
    DecidesBy (.blt rs1 rs2 imm) (fun a b => signed a < signed b) (relative imm) :=
  ⟨fun _ _ => decide_eq_true_iff, fun _ _ => rfl⟩

theorem decidesBy_bge (rs1 rs2 : RegIdx) (imm : Int) :
    DecidesBy (.bge rs1 rs2 imm) (fun a b => signed a ≥ signed b) (relative imm) :=
  ⟨fun _ _ => decide_eq_true_iff, fun _ _ => rfl⟩

theorem decidesBy_jal (rd : RegIdx) (imm : Int) : DecidesBy (.jal rd imm) (fun _ _ => True) (relative imm) :=
  ⟨fun _ _ => iff_of_true rfl trivial, fun _ _ => rfl⟩

theorem decidesBy_j (imm : Int) : DecidesBy (.j imm) (fun _ _ => True) (relative imm) :=
  ⟨fun _ _ => iff_of_true rfl trivial, fun _ _ => rfl⟩

theorem decidesBy_jalr (rd rs1 : RegIdx) (imm : Int) :
    DecidesBy (.jalr rd rs1 imm) (fun _ _ => True) (indirect imm) :=
  ⟨fun _ _ => iff_of_true rfl trivial, fun pc a => indirectTarget_eq_indirect pc a imm⟩

/-! ### EX, MEM and WB of a transfer -/

/-- An instruction that drives no ALU operation accesses no memory: `lw` and `sw` add in EX (R229, R232). -/
theorem memPasses_of_no_alu {i : Instr} (h : aluOpOf i.mnemonic = none) : MemPasses i := by
  apply memPasses_of_mnemonic <;> intro hm <;> rw [hm] at h <;> cases h

/-- The stages of a branch: ID by its decision, 0 from EX, nothing written (R215, R234). -/
theorem branch_stages {i : Instr} {takes : Word → Word → Prop} {target : Word → Word → Word}
    (h : DecidesBy i takes target) (hf : i.format = .b) (hop : aluOpOf i.mnemonic = none) (hrd : i.rd? = none) :
    IdTransfers i i.rs1? i.rs2? takes target ∧ ExGives i (fun _ _ => True) (fun _ _ _ => 0#32) ∧ MemPasses i ∧
      WbKeeps i := by
  refine ⟨h.idTransfers, exGives_of_exValue fun pc a b _ => ?_, memPasses_of_no_alu hop,
    wbKeeps_of_no_rd hrd⟩
  rw [exValue, hop, if_pos hf]

/-- The stages of a jump: ID by its target, the link value from EX, written to `rd` (R214, R233). -/
theorem jump_stages {i : Instr} {rd : RegIdx} {target : Word → Word → Word}
    (h : DecidesBy i (fun _ _ => True) target) (hf : i.format ≠ .b) (hop : aluOpOf i.mnemonic = none)
    (hrd : i.rd? = some rd) (hrs2 : i.rs2? = none) : Jump i rd i.rs1? target := by
  refine ⟨hrs2 ▸ h.idTransfers, exGives_of_exValue fun pc a b _ => ?_, memPasses_of_no_alu hop, wbWrites_of_rd hrd⟩
  rw [exValue, hop, if_neg hf, linkValue_eq_ofNat]

/-! ### The statements -/

/-- Settles O28: the four are branches that differ in their decision only. -/
theorem branchesComplete : Obligations.BranchesComplete :=
  ⟨fun rs1 rs2 imm => branch_stages (decidesBy_beq rs1 rs2 imm) rfl rfl rfl,
    fun rs1 rs2 imm => branch_stages (decidesBy_bne rs1 rs2 imm) rfl rfl rfl,
    fun rs1 rs2 imm => branch_stages (decidesBy_blt rs1 rs2 imm) rfl rfl rfl,
    fun rs1 rs2 imm => branch_stages (decidesBy_bge rs1 rs2 imm) rfl rfl rfl⟩

/-- Settles O29: the three are jumps that differ in their target, and in the `rd` that takes the link. -/
theorem jumpsComplete : Obligations.JumpsComplete :=
  ⟨fun rd imm => jump_stages (decidesBy_jal rd imm) nofun rfl rfl rfl,
    fun imm => jump_stages (decidesBy_j imm) nofun rfl rfl rfl,
    fun rd rs1 imm => jump_stages (decidesBy_jalr rd rs1 imm) nofun rfl rfl rfl⟩

/-- Settles O30: the trap of ID follows from when each transfer is taken and where it goes. -/
theorem transfersTrapMisaligned : Obligations.TransfersTrapMisaligned :=
  ⟨fun rs1 rs2 imm => (decidesBy_beq rs1 rs2 imm).idTraps, fun rs1 rs2 imm => (decidesBy_bne rs1 rs2 imm).idTraps,
    fun rs1 rs2 imm => (decidesBy_blt rs1 rs2 imm).idTraps, fun rs1 rs2 imm => (decidesBy_bge rs1 rs2 imm).idTraps,
    fun rd imm => (decidesBy_jal rd imm).idTraps, fun imm => (decidesBy_j imm).idTraps,
    fun rd rs1 imm => (decidesBy_jalr rd rs1 imm).idTraps⟩

end Sys2Proof.Machine
end

section
/-! PROOFS. One step. Each stage, run on the state the older stages leave, answers what its synchronous definition gives
from the values at the start of the cycle; so a step is the synchronous cycle (`stepIsSynchronousCycle`), and the statements
about a next state, and about several steps in a row, are read off what the synchronous cycle makes of each field
(`step_sync`). -/

namespace Sys2Proof.Machine

open Sys2Proof.Claims

/-! ### The stages as synchronous definitions -/

/-- The outcome of a computation that gives a value or raises a fault: the state made of the value, or the fault. -/
def outcomeOf {α : Type} (e : Except Fault α) (next : α → State) : StepOutcome :=
  match e with
  | .ok a => .next (next a)
  | .error f => .fault f

@[simp] theorem outcomeOf_ok {α : Type} (a : α) (next : α → State) :
    outcomeOf (.ok a : Except Fault α) next = .next (next a) := rfl

@[simp] theorem outcomeOf_error {α : Type} (f : Fault) (next : α → State) :
    outcomeOf (.error f : Except Fault α) next = .fault f := rfl

/-- The state after WB, with the register file that the write port of R223 leaves. -/
def afterWb (s : State) (st : Stage) : State :=
  { s with regs := if rfWe s then writeLane s.regs (rfWaddr s) (rfWdata s) else s.regs, stage := st }

theorem wbStage_of_known {s : State} {c : MemWbData} {i : Instr} (hc : s.memWb.content = some c)
    (hi : Holds c.instr i) : wbStage s = exec i (atStage .wb s) := by
  obtain ⟨raw, hr⟩ := hi
  simp only [wbStage, hc, hr]

/-- WB always answers a next state (R223, R224). -/
theorem wbStage_answers (s : State) : ∃ t, wbStage s = .next t := by
  unfold wbStage noWriteBack
  split
  · exact ⟨_, rfl⟩
  · split
    · exact ⟨_, rfl⟩
    · rename_i c hc _ i raw hr
      rcases exec_wb_cases i (s := atStage .wb s) rfl with ⟨rd, -, -, he⟩ | ⟨-, -, he⟩ <;> rw [he]
      · exact ⟨_, by rw [writeBack, atStage_memWb, hc]⟩
      · exact ⟨_, rfl⟩

/-- WB writes the port of R223 and nothing else. -/
theorem wbStage_eq (s : State) : ∃ st, wbStage s = .next (afterWb s st) := by
  obtain ⟨t, ht⟩ := wbStage_answers s
  refine ⟨t.stage, ht.trans (congrArg _ ?_)⟩
  rw [afterWb, ← wbStage_regs ht]
  exact wbStage_next ht

theorem exec_mem_of_sw {i : Instr} {s : State} (hi : i.mnemonic = .sw) (hs : s.stage = .mem) : exec i s = memStore s := by
  cases i with
  | sw rs1 rs2 imm => exact exec_sw_mem rs1 rs2 imm hs
  | _ => cases hi

/-- MEM answers MEM_WB', mem' and the noted stores of `syncMem` (R226 to R229). -/
theorem memStage_eq_self (s : State) : ∃ st, memStage s = outcomeOf (syncMem s) fun r =>
    { s with memWb := r.1, mem := r.2.1, touched := r.2.2, stage := st } := by
  cases hc : s.exMem.content with
  | none => exact ⟨s.stage, by simp [memStage, memPass, syncMem, hc]⟩
  | some c =>
    cases hr : c.instr with
    | unknown raw => exact ⟨s.stage, by rw [memStage_of_unknown hc ⟨raw, hr⟩]; simp [syncMem, hc, hr, knownInstr]⟩
    | known i raw =>
      refine ⟨.mem, (memStage_of_known hc ⟨raw, hr⟩).trans ?_⟩
      by_cases hlw : i.mnemonic = .lw
      · rw [exec_mem_of_lw hlw rfl]
        by_cases hb : c.aluResult.toNat + 4 ≤ s.dmemBytes <;>
          simp [memLoad, readWord, syncMem, raise, atStage, hc, hr, knownInstr, hlw, hb]
      · by_cases hsw : i.mnemonic = .sw
        · rw [exec_mem_of_sw hsw rfl]
          by_cases hb : c.aluResult.toNat + 4 ≤ s.dmemBytes <;>
            simp [memStore, writeWord, syncMem, raise, atStage, hc, hr, knownInstr, hsw, hb]
        · rw [memPasses_of_mnemonic hlw hsw (atStage .mem s) c rfl hc]
          simp [syncMem, atStage, hc, hr, knownInstr, hlw, hsw]

/-- On a state that agrees with `s` on what MEM looks at, MEM answers what `syncMem` gives in `s`. -/
theorem memStage_eq {s s' : State} (hexMem : s'.exMem = s.exMem) (hmem : s'.mem = s.mem)
    (htouched : s'.touched = s.touched) (hcapacity : s'.dmemBytes = s.dmemBytes) :
    ∃ st, memStage s' = outcomeOf (syncMem s) fun r =>
      { s' with memWb := r.1, mem := r.2.1, touched := r.2.2, stage := st } := by
  have hsync : syncMem s = syncMem s' := by simp only [syncMem, hexMem, hmem, htouched, hcapacity]
  exact hsync ▸ memStage_eq_self s'

/-- EX answers EX_MEM' of `syncEx` (R230 to R236). -/
theorem exStage_eq_self (s : State) :
    ∃ st, exStage s = outcomeOf (syncEx s) fun r => { s with exMem := r, stage := st } := by
  cases hc : s.idEx.content with
  | none => exact ⟨s.stage, by simp [exStage, exZero, syncEx, hc]⟩
  | some c =>
    cases hr : c.instr with
    | unknown raw =>
      exact ⟨s.stage, by rw [exStage_of_unknown hc ⟨raw, hr⟩]; simp [exResult, syncEx, hc, hr, knownInstr]⟩
    | known i raw =>
      refine ⟨.ex, (exStage_of_known hc ⟨raw, hr⟩).trans ?_⟩
      rcases exec_ex_cases i (atStage_stage s .ex) with ⟨op, hop, he⟩ | ⟨hop, hf, he⟩ | ⟨hop, hf, he⟩ <;> rw [he]
      · simp only [exAlu, syncEx, atStage_idEx, hc, hr, knownInstr, hop]
        cases hv : operate op c.rs1Val (secondOperand i.imm? c.rs2Val) <;> simp [exResult, raise, atStage, hr]
      · simp [exZero, exResult, syncEx, atStage, hc, hr, knownInstr, hop, hf]
      · simp [exLink, exResult, syncEx, atStage, hc, hr, knownInstr, hop, hf]

/-- On a state that agrees with `s` on ID_EX, EX answers what `syncEx` gives in `s`. -/
theorem exStage_eq {s s' : State} (hidEx : s'.idEx = s.idEx) :
    ∃ st, exStage s' = outcomeOf (syncEx s) fun r => { s' with exMem := r, stage := st } := by
  have hsync : syncEx s = syncEx s' := by simp only [syncEx, hidEx]
  exact hsync ▸ exStage_eq_self s'

/-- IF without a taken transfer is the fetch of R243 and R244, which looks at `pc` and the program only. -/
theorem fetch_eq_syncIf {s s' : State} (hpc : s'.pc = s.pc) (himem : s'.imem = s.imem) :
    fetch s' = { s' with ifId := (syncIf s none).1, pc := (syncIf s none).2 } := by
  unfold fetch instructionFetch syncIf
  rw [hpc, himem]
  by_cases hlt : s.pc.toNat < 4 * s.imem.length
  · have hword : s.pc.toNat / 4 < s.imem.length := by omega
    simp [hlt, List.getElem?_eq_getElem hword]
  · simp [hlt]

theorem idStage_of_known {s : State} {w : Word} {i : Instr} (hc : s.ifId.content = some w) (hi : Is w i) :
    idStage s = exec i (atStage .id s) := by
  unfold Is at hi
  simp only [idStage, hc, hi]

/-- `syncId` of a known instruction hands its operand values to EX, and gives the target of the transfer it takes, which
must be a multiple of 4 (R238, R240, R241). -/
theorem syncId_of_known {s : State} {w : Word} {i : Instr} (hc : s.ifId.content = some w) (hi : Is w i) :
    syncId s =
      let a := syncOperand s i.rs1?
      let b := syncOperand s i.rs2?
      let slot : Slot IdExData := ⟨s.ifId.pc, some ⟨decode w, a, b⟩⟩
      let target := syncTarget i s.ifId.pc a
      if syncTaken i a b then
        if target.toNat % 4 = 0 then .ok (slot, some target) else .error (.misalignedTarget target s.ifId.pc)
      else .ok (slot, none) := by
  unfold Is at hi
  simp only [syncId, hc, hi, knownInstr, Option.bind_some]

/-- On a state whose registers read what `rf_read` gives in `s`, ID and IF answer ID_EX', IF_ID' and `pc'` of `syncId` and
`syncIf` (R237 to R246). -/
theorem idStage_eq {s s' : State} (hread : ∀ r, readLane s'.regs r = rfRead s r) (hif : s'.ifId = s.ifId)
    (hpc : s'.pc = s.pc) (himem : s'.imem = s.imem) : ∃ st, idStage s' = outcomeOf (syncId s) fun r =>
      { s' with idEx := r.1, ifId := (syncIf s r.2).1, pc := (syncIf s r.2).2, stage := st } := by
  cases hc : s.ifId.content with
  | none =>
    have hc' : s'.ifId.content = none := by rw [hif, hc]
    refine ⟨s'.stage, ?_⟩
    simp only [idStage, hc', idPlain, fetch_eq_syncIf ((issue_pc _ _ _).trans hpc) ((issue_imem _ _ _).trans himem)]
    simp [issue, syncId, hif, hc]
  | some w =>
    have hc' : s'.ifId.content = some w := by rw [hif, hc]
    cases hd : decode w with
    | unknown raw =>
      refine ⟨s'.stage, ?_⟩
      rw [idStage_of_unknown hc' ⟨raw, hd⟩, fetch_eq_syncIf (s := s) (s' := issued s' w none none) hpc himem]
      simp [issued, syncId, syncOperand, sourceValue, hif, hc, hd, knownInstr]
    | known i raw =>
      have hi := is_of_decode hd
      have hdecides : DecidesBy i (fun a b => syncTaken i a b = true) (syncTarget i) :=
        ⟨fun _ _ => Iff.rfl, fun _ _ => rfl⟩
      obtain ⟨hpass, htake⟩ := hdecides.idTransfers (atStage .id s') w rfl hc'
      have htrap := hdecides.idTraps (atStage .id s') w rfl hc'
      refine ⟨.id, ?_⟩
      simp only [idStage_of_known hc' hi, syncId_of_known hc hi, ← sourceValue_eq_syncOperand hread, ← hif]
      split
      · split
        · exact htake ‹_› ‹_›
        · exact htrap ‹_› ‹_›
      · exact (hpass ‹_›).trans (congrArg _ (fetch_eq_syncIf hpc himem))

theorem step_of_latch_clear {s : State} (h : s.fault = none) : step s = runCycle s := by
  simp only [step, cycle, h]

/-- Settles O37: stage by stage. The older stages leave `pc`, the program and IF_ID to ID, and the registers as `rf_read`
reads them. -/
theorem stepIsSynchronousCycle : Obligations.StepIsSynchronousCycle := by
  intro s hfault
  obtain ⟨st1, h1⟩ := wbStage_eq s
  have hread : ∀ r, readLane (afterWb s st1).regs r = rfRead s r := readLane_wbStage h1
  obtain ⟨st2, h2⟩ := memStage_eq (s := s) (s' := afterWb s st1) rfl rfl rfl rfl
  rw [step_of_latch_clear hfault, runCycle, olderStages, syncCycle, h1]
  simp only [andThen, h2]
  cases syncMem s with
  | error f => rfl
  | ok m =>
    obtain ⟨memWb', mem', touched'⟩ := m
    obtain ⟨st3, h3⟩ := exStage_eq (s := s) (s' := { afterWb s st1 with
      memWb := memWb', mem := mem', touched := touched', stage := st2 }) rfl
    simp only [outcomeOf_ok, h3]
    cases syncEx s with
    | error f => rfl
    | ok exMem' =>
      obtain ⟨st4, h4⟩ := idStage_eq (s := s) (s' := { afterWb s st1 with
        memWb := memWb', mem := mem', touched := touched', exMem := exMem', stage := st3 }) hread rfl rfl rfl
      simp only [outcomeOf_ok, h4]
      cases syncId s with
      | error f => rfl
      | ok r => obtain ⟨idEx', target⟩ := r; rfl

/-! ### A next state, field by field -/

/-- A step that answers a next state takes every field but the registers from its synchronous definition (R222, R247). -/
theorem step_sync {s t : State} (h : step s = .next t) : ∃ target,
    syncMem s = .ok (t.memWb, t.mem, t.touched) ∧ syncEx s = .ok t.exMem ∧ syncId s = .ok (t.idEx, target) ∧
      t.ifId = (syncIf s target).1 ∧ t.pc = (syncIf s target).2 := by
  rw [stepIsSynchronousCycle s (step_effect h).latchClear, syncCycle] at h
  split at h
  · cases h
  · split at h
    · cases h
    · split at h
      · cases h
      · cases h
        exact ⟨_, ‹_›, ‹_›, ‹_›, rfl, rfl⟩

/-- R239: what a register reads after a step is what `rf_read` reads before it. -/
theorem readLane_step {s t : State} (h : step s = .next t) (r : RegIdx) : readLane t.regs r = rfRead s r := by
  obtain ⟨-, s1, s2, s3, s4, h1, h2, h3, h4, ht⟩ := step_next h
  rw [step_fields h1 h2 h3 h4 ht]
  exact readLane_wbStage h1 r

/-- MEM of a step can be run on the state the step begins in. -/
theorem step_memStage {s t : State} (h : step s = .next t) :
    ∃ st, memStage s = .next { s with memWb := t.memWb, mem := t.mem, touched := t.touched, stage := st } := by
  obtain ⟨_, hmem, -⟩ := step_sync h
  obtain ⟨st, he⟩ := memStage_eq_self s
  exact ⟨st, he.trans (by rw [hmem]; rfl)⟩

/-- EX of a step can be run on the state the step begins in. -/
theorem step_exStage {s t : State} (h : step s = .next t) :
    ∃ st, exStage s = .next { s with exMem := t.exMem, stage := st } := by
  obtain ⟨_, -, hex, -⟩ := step_sync h
  obtain ⟨st, he⟩ := exStage_eq_self s
  exact ⟨st, he.trans (by rw [hex]; rfl)⟩

/-- Where ID of a known instruction does not fault, it hands its operand values to EX, and a transfer it takes goes to a
multiple of 4 (R238, R241). -/
theorem syncId_ok_of_known {s : State} {w : Word} {i : Instr} {slot : Slot IdExData} {target : Option Word}
    (h : syncId s = .ok (slot, target)) (hc : s.ifId.content = some w) (hi : Is w i) :
    slot = ⟨s.ifId.pc, some ⟨decode w, syncOperand s i.rs1?, syncOperand s i.rs2?⟩⟩ ∧
    (syncTaken i (syncOperand s i.rs1?) (syncOperand s i.rs2?) = true →
      (syncTarget i s.ifId.pc (syncOperand s i.rs1?)).toNat % 4 = 0 ∧
      target = some (syncTarget i s.ifId.pc (syncOperand s i.rs1?))) := by
  rw [syncId_of_known hc hi] at h
  dsimp only at h
  split at h
  · split at h <;> cases h
    exact ⟨rfl, fun _ => ⟨‹_›, rfl⟩⟩
  · cases h
    exact ⟨rfl, fun htaken => absurd htaken ‹_›⟩

/-- A step hands the decoded word in IF_ID and its operand values to EX (R238). -/
theorem step_idEx_of_known {s t : State} (h : step s = .next t) {w : Word} {i : Instr} (hc : s.ifId.content = some w)
    (hi : Is w i) : t.idEx = ⟨s.ifId.pc, some ⟨decode w, syncOperand s i.rs1?, syncOperand s i.rs2?⟩⟩ := by
  obtain ⟨target, -, -, hid, -⟩ := step_sync h
  exact (syncId_ok_of_known hid hc hi).1

/-- Settles O41: the operands of `step_idEx_of_known` are those the registers read after the step. -/
theorem idReadsAfterWb : Obligations.IdReadsAfterWb := by
  intro s t w i h hc hi
  rw [step_idEx_of_known h hc hi]
  have hoperand := sourceValue_eq_syncOperand (readLane_step h)
  rw [← hoperand, ← hoperand]
  rfl

/-- Settles O38: without a taken transfer `pc` and IF_ID are those of the fetch. -/
theorem sequentialFetch : Obligations.SequentialFetch := by
  intro s t h hnt
  obtain ⟨-, hpc, hif⟩ := (step_effect h).control.resolve_right fun ⟨target, htk, _⟩ => hnt ⟨target, htk⟩
  rw [hpc, hif, fetch_eq_syncIf rfl rfl, syncIf]
  refine ⟨fun hlt => ?_, fun hge => ?_⟩
  · have hword : s.pc.toNat / 4 < s.imem.length := by omega
    rw [if_pos hlt, List.getElem?_eq_getElem hword]
    exact ⟨_, rfl, rfl, rfl⟩
  · rw [if_neg hge.not_gt]
    exact ⟨rfl, rfl⟩

/-- Settles O39: a step with a taken transfer has its target aligned, and IF_ID and `pc` are those of the redirection. -/
theorem takenTransferFlushes : Obligations.TakenTransferFlushes := by
  intro s t target h htk
  obtain ⟨w, i, hc, hi, htaken, rfl⟩ := htk
  obtain ⟨target', -, -, hid, hif, hpc⟩ := step_sync h
  obtain ⟨hidEx, htakes⟩ := syncId_ok_of_known hid hc hi
  obtain ⟨hal, rfl⟩ := htakes htaken
  exact ⟨hal, hpc, hif, w, i, hc, hi, hidEx⟩

/-! ### The registers after a step -/

/-- The formats with a destination (R106). -/
theorem format_of_rd {i : Instr} {rd : RegIdx} (h : i.rd? = some rd) : i.format ∈ [Format.r, .i, .j] := by
  simpa [h, or_assoc] using (fieldPresence i).1

/-- Where the write port is on, MEM_WB holds a known instruction, and the port its `rd` and its result (R223). -/
theorem writePort_on {s : State} (h : rfWe s = true) : ∃ c i rd, s.memWb.content = some c ∧ Holds c.instr i ∧
    i.rd? = some rd ∧ rfWaddr s = rd ∧ rfWdata s = c.result := by
  cases hc : s.memWb.content with
  | none => simp [rfWe_of_bubble hc] at h
  | some c =>
    cases hr : c.instr with
    | unknown raw => simp [rfWe_of_unknown hc ⟨raw, hr⟩] at h
    | known i raw =>
      obtain ⟨hwe, hwaddr, hwdata⟩ := writePort_of_known hc hr
      rw [hwe, ← (fieldPresence i).1, Option.isSome_iff_exists] at h
      obtain ⟨rd, hrd⟩ := h
      exact ⟨c, i, rd, rfl, ⟨raw, hr⟩, hrd, by rw [hwaddr, hrd]; rfl, hwdata⟩

/-- Settles O40: the write port of R223 is on exactly where MEM_WB holds a known instruction with a destination. -/
theorem registersWrittenInWbOnly : Obligations.RegistersWrittenInWbOnly := by
  refine ⟨fun s f hf => ?_, fun s t h k => ⟨?_, fun hno => ?_, rfl⟩⟩
  · obtain ⟨t, ht⟩ := wbStage_answers s
    cases ht.symm.trans hf
  · rintro c i hc ⟨raw, hr⟩ hformat hrd hk
    obtain ⟨hwe, hwaddr, hwdata⟩ := writePort_of_known hc hr
    have hon : rfWe s = true := by simpa [hwe, or_assoc] using hformat
    rw [(step_effect h).regs, if_pos hon, hwaddr, hwdata, hrd, readLane_writeLane]
    exact if_pos ⟨rfl, hk⟩
  · rw [(step_effect h).regs]
    split
    · obtain ⟨c, i, rd, hc, hi, hrd, hwaddr, -⟩ := writePort_on ‹_›
      have hne : k ≠ rd := fun he => hno ⟨c, i, hc, hi, format_of_rd hrd, he ▸ hrd⟩
      rw [hwaddr, readLane_writeLane, if_neg fun hk => hne hk.1]
    · rfl

/-! ### The memory after a step -/

/-- Settles O42: MEM of the instruction in EX_MEM stores exactly where that is a `sw`. -/
theorem memoryWrittenBySwOnly : Obligations.MemoryWrittenBySwOnly := by
  intro s t h
  obtain ⟨st, hmem⟩ := step_memStage h
  refine ⟨fun c rs1 rs2 imm hc hsw => ?_, fun hno => ?_⟩
  · rw [memStage_of_known hc hsw, exec_sw_mem rs1 rs2 imm rfl] at hmem
    rcases memStore_next hmem with ⟨hn, -⟩ | ⟨c', hc', hb, he⟩
    · cases hc.symm.trans hn
    · cases hc.symm.trans hc'
      exact writeWord_eq_some.2 ⟨hb, (congrArg State.mem he).symm⟩
  · cases hc : s.exMem.content with
    | none => exact (step_effect h).memory.of_bubble hc
    | some c =>
      cases hr : c.instr with
      | unknown raw =>
        rw [memStage_of_unknown hc ⟨raw, hr⟩] at hmem
        exact (congrArg State.mem (Host.Outcome.next.inj hmem)).symm
      | known i raw =>
        rw [memStage_of_known hc ⟨raw, hr⟩] at hmem
        rcases exec_stores hmem with ⟨he, -⟩ | ⟨-, hsw, -⟩
        · exact he
        · cases i with
          | sw rs1 rs2 imm => exact absurd ⟨c, rs1, rs2, imm, hc, raw, hr⟩ hno
          | _ => cases hsw

/-! ### The life of an instruction -/

/-- EX of a step hands the value of the instruction in ID_EX to MEM. -/
theorem step_exMem_of_exValue {s t : State} (h : step s = .next t) {c : IdExData} {i : Instr} {r : Word}
    (hc : s.idEx.content = some c) (hi : Holds c.instr i) (hr : exValue i s.idEx.pc c.rs1Val c.rs2Val = some r) :
    t.exMem = ⟨s.idEx.pc, some ⟨c.instr, r, c.rs2Val⟩⟩ := by
  obtain ⟨st, hex⟩ := step_exStage h
  rw [exStage_of_known hc hi, exec_ex_of_exValue (s := atStage .ex s) rfl hc hr] at hex
  exact congrArg State.exMem (Host.Outcome.next.inj hex).symm

/-- MEM of a step hands the value of the instruction in EX_MEM, which stores nothing, to WB. -/
theorem step_memWb_of_memValue {s t : State} (h : step s = .next t) {c : ExMemData} {i : Instr} {v : Word}
    (hc : s.exMem.content = some c) (hi : Holds c.instr i) (hsw : i.mnemonic ≠ .sw)
    (hv : memValue i s.dmemBytes s.mem c.aluResult = some v) :
    t.memWb = ⟨s.exMem.pc, some ⟨c.instr, v⟩⟩ := by
  obtain ⟨st, hmem⟩ := step_memStage h
  rw [memStage_of_known hc hi, exec_mem_of_memValue (s := atStage .mem s) hsw rfl hc hv] at hmem
  exact congrArg State.memWb (Host.Outcome.next.inj hmem).symm

/-- Settles O56: the operands of the first step give the value of EX in the second, that is taken through MEM in the
third, and WB of the fourth writes it. -/
theorem resultReachesRegisterInWb : Obligations.ResultReachesRegisterInWb := by
  intro s0 s1 s2 s3 s4 w i rd v h1 h2 h3 h4 hc hi hrd hres
  have hholds : Holds (decode w) i := ⟨_, hi⟩
  rw [resultOf_eq hrd, Option.bind_eq_some_iff] at hres
  obtain ⟨r, hex, hmem⟩ := hres
  simp only [sourceValue_eq_syncOperand (readLane_step h1)] at hex
  have hidEx := step_idEx_of_known h1 hc hi
  have hexMem := step_exMem_of_exValue h2 (by rw [hidEx]) hholds (by rw [hidEx]; exact hex)
  have hmemWb := step_memWb_of_memValue h3 (by rw [hexMem]) hholds (mnemonic_ne_sw_of_rd hrd) hmem
  obtain ⟨hwrites, -, -⟩ := registersWrittenInWbOnly.2 s3 s4 h4 rd
  split
  · subst rd
    rfl
  · exact hwrites _ i (by rw [hmemWb]) hholds (format_of_rd hrd) hrd ‹_›

/-! ### The decoded instruction in each stage -/

/-- Settles O36: each stage by what its stage register holds; the sequence of the stages is that of `runCycle`, and the
older stages leave IF_ID alone. -/
theorem stepRunsDecodedInstruction : Obligations.StepRunsDecodedInstruction := by
  refine ⟨fun s i c => wbStage_of_known, fun s i c => memStage_of_known, fun s i c => exStage_of_known, ?_, ?_, ?_⟩
  · intro s s3 w i hfault hc hi hold
    have hif : s3.ifId = s.ifId := by
      obtain ⟨s2, h12, h3⟩ := andThen_next.1 hold
      obtain ⟨s1, h1, h2⟩ := andThen_next.1 h12
      rw [olderStages_frame h1 h2 h3]
    rw [step_of_latch_clear hfault, runCycle, hold, ← idStage_of_known (hif ▸ hc) hi]
    rfl
  · intro s f hfault hold
    rw [step_of_latch_clear hfault, runCycle, hold]
    rfl
  · intro s s1 s2 h1 h2
    rw [olderStages, h1]
    exact congrArg (andThen · exStage) h2

end Sys2Proof.Machine
end

section
/-! PROOFS. A program without a transfer, from its load to the cycle that drains it: the key lemma is
`StraightLine.after_step`, which moves the words in flight on by one stage. -/

namespace Sys2Proof.Machine

open Sys2Proof.Claims

/-! ### No transfer -/

/-- Only a control transfer is ever taken (R211). -/
theorem isTransfer_of_taken {i : Instr} {a b : Word} (h : syncTaken i a b = true) (raw : Raw) :
    isTransfer (.known i raw) = true := by
  cases i with
  | beq | bne | blt | bge | jal | j | jalr => rfl
  | _ => cases h

theorem not_taken_of_not_transfer {s : State} (h : ∀ w, s.ifId.content = some w → isTransfer (decode w) = false) :
    ¬ ∃ target, Taken s target := by
  rintro ⟨target, w, i, hc, hi, htaken, -⟩
  have hplain := h w hc
  rw [hi, isTransfer_of_taken htaken] at hplain
  cases hplain

/-- A bubble is carried on as a bubble, and a record as a record. -/
theorem Carries.isSome_eq {α β : Type} {f : α → Decoded} {g : β → Decoded} {a : Slot α} {b : Slot β}
    (h : Carries f g a b) : b.content.isSome = a.content.isSome := by
  rw [← Option.isSome_map (f := g), h.2, Option.isSome_map]

/-! ### The words in flight -/

/-- The machine `k` cycles after the load of `words`, none of them a transfer: IF is at word `k`, and the word fetched in a
cycle is in IF_ID, ID_EX, EX_MEM and MEM_WB at the end of that cycle and of the three after it (R249). -/
structure StraightLine (words : List Word) (k : Nat) (s : State) : Prop where
  imem : s.imem = words
  cycle : s.cycle = k
  pc : s.pc.toNat = 4 * min k words.length
  fetched : ∀ w, s.ifId.content = some w → w ∈ words
  ifId : s.ifId.content.isSome = decide (1 ≤ k ∧ k < words.length + 1)
  idEx : s.idEx.content.isSome = decide (2 ≤ k ∧ k < words.length + 2)
  exMem : s.exMem.content.isSome = decide (3 ≤ k ∧ k < words.length + 3)
  memWb : s.memWb.content.isSome = decide (4 ≤ k ∧ k < words.length + 4)

theorem straightLine_of_load {s t : State} {words : List Word} (h : load s words = .ok t) : StraightLine words 0 t := by
  obtain ⟨-, rfl⟩ := load_ok h
  constructor <;> simp [State.reset]

/-- The fetch of the cycle `k + 1`: word `k` of the program, or nothing past its end (R243, R244). -/
theorem StraightLine.after_fetch {words : List Word} {k : Nat} {s t : State} (h : StraightLine words k s)
    (hbound : words.length < Config.programWordsBound) (hnt : ¬ ∃ target, Taken s target) (hst : step s = .next t) :
    t.pc.toNat = 4 * min (k + 1) words.length ∧ (∀ w, t.ifId.content = some w → w ∈ words) ∧
      t.ifId.content.isSome = decide (1 ≤ k + 1 ∧ k + 1 < words.length + 1) := by
  obtain ⟨hin, hout⟩ := sequentialFetch s t hst hnt
  rw [h.imem, h.pc] at hin hout
  rcases Nat.lt_or_ge k words.length with hk | hk
  · obtain ⟨w, hw, hif, hpc⟩ := hin (by omega)
    unfold Config.programWordsBound at hbound
    refine ⟨?_, fun w' hw' => ?_, ?_⟩
    · rw [hpc, BitVec.toNat_add, h.pc, BitVec.toNat_ofNat]
      omega
    · rw [hif] at hw'
      cases hw'
      exact List.mem_of_getElem? hw
    · simp [hif, hk]
  · obtain ⟨hif, hpc⟩ := hout (by omega)
    refine ⟨?_, fun w hw => ?_, ?_⟩
    · rw [hpc, h.pc]
      omega
    · rw [hif] at hw
      cases hw
    · simp [hif, hk]

theorem StraightLine.after_step {words : List Word} {k : Nat} {s t : State} (h : StraightLine words k s)
    (hbound : words.length < Config.programWordsBound) (hplain : ∀ w ∈ words, isTransfer (decode w) = false)
    (hst : step s = .next t) : StraightLine words (k + 1) t := by
  have he := step_effect hst
  have hnt := not_taken_of_not_transfer fun w hw => hplain w (h.fetched w hw)
  obtain ⟨hpc, hfetched, hifId⟩ := h.after_fetch hbound hnt hst
  refine ⟨he.imem.trans h.imem, by rw [he.cycle, h.cycle], hpc, hfetched, hifId, ?_, ?_, ?_⟩
  · rw [he.idEx.isSome_eq, h.ifId]
    simp
  · rw [he.exMem.isSome_eq, h.idEx]
    simp
  · rw [he.memWb.isSome_eq, h.exMem]
    simp

/-! ### A run of cycles -/

/-- A run of one step more is a step and the run from there. -/
theorem run_succ_next {M : Host.Core} {n : Nat} {s u : M.State} :
    M.run (n + 1) s = .next u ↔ ∃ s', M.step s = .next s' ∧ M.run n s' = .next u := by
  rw [Host.Core.run]
  cases M.step s <;> simp

/-- A run of `n` cycles takes the machine `n` cycles on. -/
theorem StraightLine.after_run {words : List Word} (hbound : words.length < Config.programWordsBound)
    (hplain : ∀ w ∈ words, isTransfer (decode w) = false) {n k : Nat} {s t : State} (h : StraightLine words k s)
    (hrun : core.run n s = .next t) : StraightLine words (k + n) t := by
  induction n generalizing k s with
  | zero => cases hrun; exact h
  | succ n ih =>
    obtain ⟨s', hst, hrest⟩ := run_succ_next (M := core) |>.1 hrun
    have hnext := ih (h.after_step hbound hplain hst) hrest
    rwa [Nat.add_assoc, Nat.add_comm 1 n] at hnext

/-- Some stage register is occupied up to cycle `N + 3`, and none from cycle `N + 4` on. -/
theorem StraightLine.drained_eq {words : List Word} {k : Nat} {s : State} (h : StraightLine words k s) (hk : 1 ≤ k)
    (hwords : words ≠ []) : drained s = decide (words.length + 4 ≤ k) := by
  have hlen := List.length_pos_iff.2 hwords
  rw [Bool.eq_iff_iff]
  simp only [drained, ← Option.not_isSome, h.ifId, h.idEx, h.exMem, h.memWb, Bool.and_eq_true, Bool.not_eq_true',
    decide_eq_false_iff_not, decide_eq_true_eq]
  omega

/-- Settles O59: the run keeps `StraightLine`, which tells from the number of cycles whether the pipeline is drained. -/
theorem straightLineDrainsInNPlusFour : Obligations.StraightLineDrainsInNPlusFour := by
  intro s0 t words hwords hplain hload
  obtain ⟨hbound, -⟩ := load_ok hload
  have hafter : ∀ {k u}, core.run k t = .next u → StraightLine words k u := fun {k u} hrun =>
    Nat.zero_add k ▸ (straightLine_of_load hload).after_run hbound hplain hrun
  refine ⟨fun u hrun => ?_, fun k u hk hlt hrun => ?_⟩
  · have h := hafter hrun
    exact ⟨(h.drained_eq (by omega) hwords).trans (decide_eq_true le_rfl), h.cycle⟩
  · exact ((hafter hrun).drained_eq hk hwords).trans (decide_eq_false (by omega))

end Sys2Proof.Machine
end

section
/-! PROOFS. The host's interface: the reset that a load makes, the drained pipeline and the end of a run. The key lemmas are
`step_of_drained`, the step of an empty pipeline past the program, and `runLoop_ends`, by induction on the cycles left. -/

namespace Sys2Proof.Machine

open Sys2Proof.Claims

/-! ### Load -/

/-- Settles O50, by the bound on the program; the hardware reset is the same record update. -/
theorem loadResets : Obligations.LoadResets := fun _ _ => ⟨fun h => if_pos h, fun h => if_neg h.not_gt, rfl⟩

/-! ### The drained pipeline -/

theorem drained_iff {s : State} : drained s = true ↔
    s.ifId.content = none ∧ s.idEx.content = none ∧ s.exMem.content = none ∧ s.memWb.content = none := by
  simp [drained, and_assoc]

/-- A step that ends drained took no transfer, for the transfer would be in ID_EX, and fetched nothing: it began with `pc`
past the program and left it there (R243, R244). -/
theorem pc_past_program_of_drained {s t : State} (h : step s = .next t) (hd : drained t = true) :
    4 * t.imem.length ≤ t.pc.toNat := by
  obtain ⟨hif, hid, -, -⟩ := drained_iff.1 hd
  have he := step_effect h
  have hnt : ¬ ∃ target, Taken s target := by
    rintro ⟨target, w, i, hw, -⟩
    have hrecord := he.idEx.isSome_eq
    simp [hid, hw] at hrecord
  obtain ⟨hin, hout⟩ := sequentialFetch s t h hnt
  rw [he.imem]
  rcases Nat.lt_or_ge s.pc.toNat (4 * s.imem.length) with hlt | hge
  · obtain ⟨w, -, hfetched, -⟩ := hin hlt
    simp [hfetched] at hif
  · rwa [(hout hge).2]

/-- The step of a drained pipeline with `pc` past the program moves the addresses of its bubbles on and counts (R39, R41,
R244). -/
theorem step_of_drained {s : State} (hfault : s.fault = none) (hd : drained s = true)
    (hpc : 4 * s.imem.length ≤ s.pc.toNat) : step s = .next { s with
      ifId := bubble s.pc, idEx := bubble s.ifId.pc, exMem := bubble s.idEx.pc, memWb := bubble s.exMem.pc
      cycle := s.cycle + 1, stage := .id } := by
  obtain ⟨hif, hid, hex, hwb⟩ := drained_iff.1 hd
  have hmem : syncMem s = .ok (bubble s.exMem.pc, s.mem, s.touched) := by simp only [syncMem, hex]
  have hexec : syncEx s = .ok (bubble s.idEx.pc) := by simp only [syncEx, hid]
  have hdecode : syncId s = .ok (bubble s.ifId.pc, none) := by simp only [syncId, hif]
  have hfetch : syncIf s none = (bubble s.pc, s.pc) := if_neg hpc.not_gt
  rw [stepIsSynchronousCycle s hfault]
  simp [syncCycle, hmem, hexec, hdecode, hfetch, rfWe_of_bubble hwb]

/-- Settles O54: the state is past the program with a clear latch, and its next step is that of a drained pipeline. -/
theorem drainedStaysDrained : Obligations.DrainedStaysDrained := by
  intro s t h hd
  have hpc := pc_past_program_of_drained h hd
  have he := step_effect h
  exact ⟨hpc, _, step_of_drained (he.fault.trans he.latchClear) hd hpc, rfl, rfl, rfl, rfl, rfl⟩

/-! ### The end of a run -/

/-- The three ends of R266 to R268 for a run from `s` with the cap `maxCycles`: drained after at least one step, faulted, or
at the cap. -/
def RunEnds (maxCycles : Nat) (s : State) (r : RunResult) : Prop :=
  (∃ k t, core.run (k + 1) s = .next t ∧ drained t = true ∧ r = .finished t) ∨
  (∃ k t f, core.run k s = .next t ∧ step t = .fault f ∧ r = .faulted f (latchFault t f)) ∨
  (∃ k t, core.run (k + 1) s = .next t ∧ drained t = false ∧ maxCycles ≤ t.cycle ∧ r = .cycleLimit t)

/-- A run of one step. -/
theorem run_one_of_step {s t : State} (h : step s = .next t) : core.run (0 + 1) s = .next t :=
  run_succ_next (M := core) |>.2 ⟨t, h, rfl⟩

/-- The end of a run from the state after a step is an end of the run from the state before it. -/
theorem RunEnds.of_step {maxCycles : Nat} {s t : State} {r : RunResult} (h : step s = .next t)
    (hr : RunEnds maxCycles t r) : RunEnds maxCycles s r := by
  have hrun : ∀ {k u}, core.run k t = .next u → core.run (k + 1) s = .next u := fun hk =>
    run_succ_next (M := core) |>.2 ⟨t, h, hk⟩
  rcases hr with ⟨k, u, hk, hend⟩ | ⟨k, u, f, hk, hend⟩ | ⟨k, u, hk, hend⟩
  · exact .inl ⟨k + 1, u, hrun hk, hend⟩
  · exact .inr (.inl ⟨k + 1, u, f, hrun hk, hend⟩)
  · exact .inr (.inr ⟨k + 1, u, hrun hk, hend⟩)

/-- The loop never runs out of cycles before the cap: with at least one cycle left, and enough of them to reach the cap, it
ends in one of the three ways. -/
theorem runLoop_ends {maxCycles fuel : Nat} {s : State} (hpos : 1 ≤ fuel) (hcap : maxCycles ≤ s.cycle + fuel) :
    RunEnds maxCycles s (runLoop maxCycles fuel s) := by
  induction fuel generalizing s with
  | zero => cases hpos
  | succ fuel ih =>
    rw [runLoop]
    cases hst : step s with
    | fault f => exact .inr (.inl ⟨0, s, f, rfl, hst, rfl⟩)
    | refused r => exact absurd hst (noStepIsRefused s r)
    | next t =>
      have hcycle := (step_effect hst).cycle
      dsimp only
      split
      · exact .inl ⟨0, t, run_one_of_step hst, ‹_›, rfl⟩
      · split
        · exact .inr (.inr ⟨0, t, run_one_of_step hst, Bool.eq_false_iff.2 ‹_›, ‹_›, rfl⟩)
        · exact (ih (by omega) (by omega)).of_step hst

/-- Settles O55: `run` gives its loop at least one cycle, and those that are left up to the cap. -/
theorem runEndsAsStated : Obligations.RunEndsAsStated := fun _ _ => runLoop_ends (by omega) (by omega)

end Sys2Proof.Machine
end

section
/-! PROOFS. The faults: for MEM and EX the fault an instruction raises there, by its mnemonic and the carried values; for a
step the oldest instruction's fault (`syncCycle_eq_fault_iff`); and the latch, which ends the run. -/

namespace Sys2Proof.Machine

open Sys2Proof.Claims

/-! ### The fault of an instruction in MEM -/

theorem memLoad_fault_iff {s : State} {c : ExMemData} {f : Fault} (hc : s.exMem.content = some c) :
    memLoad s = .fault f ↔
      s.dmemBytes < c.aluResult.toNat + 4 ∧ f = .addressError .load c.aluResult s.exMem.pc := by
  by_cases hb : c.aluResult.toNat + 4 ≤ s.dmemBytes
  · simp [memLoad, hc, readWord_of_le _ hb, hb.not_gt]
  · simp [memLoad, hc, readWord, hb, raise, Nat.lt_of_not_le hb, eq_comm]

theorem memStore_fault_iff {s : State} {c : ExMemData} {f : Fault} (hc : s.exMem.content = some c) :
    memStore s = .fault f ↔
      s.dmemBytes < c.aluResult.toNat + 4 ∧ f = .addressError .store c.aluResult s.exMem.pc := by
  by_cases hb : c.aluResult.toNat + 4 ≤ s.dmemBytes
  · simp [memStore, hc, writeWord_of_le _ hb, hb.not_gt]
  · simp [memStore, hc, writeWord, hb, raise, Nat.lt_of_not_le hb, eq_comm]

/-- In MEM only a `lw` or a `sw` whose word does not fit raises, and it raises AddressError (R75, R283). -/
theorem exec_mem_fault_iff {i : Instr} {s : State} {c : ExMemData} {f : Fault} (hs : s.stage = .mem)
    (hc : s.exMem.content = some c) :
    exec i s = .fault f ↔ s.dmemBytes < c.aluResult.toNat + 4 ∧
      ((i.mnemonic = .lw ∧ f = .addressError .load c.aluResult s.exMem.pc) ∨
       (i.mnemonic = .sw ∧ f = .addressError .store c.aluResult s.exMem.pc)) := by
  by_cases hlw : i.mnemonic = .lw
  · simp [exec_mem_of_lw hlw hs, memLoad_fault_iff hc, hlw]
  · by_cases hsw : i.mnemonic = .sw
    · simp [exec_mem_of_sw hsw hs, memStore_fault_iff hc, hsw]
    · simp [memPasses_of_mnemonic hlw hsw s c hs hc, hlw, hsw]

/-- Settles O27, by the fault of `lw` and of `sw` in MEM. -/
theorem loadStoreTrapOutOfBounds : Obligations.LoadStoreTrapOutOfBounds := by
  intro s c hs hc
  refine ⟨fun rd rs1 imm => ?_, fun rs1 rs2 imm => ?_⟩ <;> simp [exec_mem_fault_iff hs hc, Instr.mnemonic]

/-! ### The fault of an instruction in EX -/

/-- Only `div` and `rem` can have no value in EX, for a zero divisor (R140, R231). -/
theorem exValue_eq_none_iff (i : Instr) (pc a b : Word) :
    exValue i pc a b = none ↔ i.mnemonic ∈ [.div, .rem] ∧ b = 0#32 := by
  cases i with
  | div => simp [exValue, aluOpOf, Instr.mnemonic, Instr.imm?, secondOperand, toOption_operate_div]
  | rem => simp [exValue, aluOpOf, Instr.mnemonic, Instr.imm?, secondOperand, toOption_operate_rem]
  | _ => simp [exValue, aluOpOf, Instr.mnemonic, operate, AluOutcome.toOption]

theorem exec_ex_of_no_exValue {i : Instr} {s : State} {c : IdExData} (hs : s.stage = .ex)
    (hc : s.idEx.content = some c) (hr : exValue i s.idEx.pc c.rs1Val c.rs2Val = none) :
    exec i s = .fault (.divisionByZero s.idEx.pc) := by
  unfold exValue at hr
  rcases exec_ex_cases i hs with ⟨op, hop, he⟩ | ⟨hop, -⟩ | ⟨hop, -⟩ <;> rw [hop] at hr
  · rw [he, exAlu, hc]
    cases hv : operate op c.rs1Val (secondOperand i.imm? c.rs2Val) with
    | value r => simp [hv, AluOutcome.toOption] at hr
    | divisionByZero => simp [hv, raise]
  · cases hr
  · cases hr

/-- In EX only a `div` or a `rem` with a zero divisor raises, and it raises DivisionByZero (R284). -/
theorem exec_ex_fault_iff {i : Instr} {s : State} {c : IdExData} {f : Fault} (hs : s.stage = .ex)
    (hc : s.idEx.content = some c) :
    exec i s = .fault f ↔ i.mnemonic ∈ [.div, .rem] ∧ c.rs2Val = 0#32 ∧ f = .divisionByZero s.idEx.pc := by
  rw [← and_assoc, ← exValue_eq_none_iff i s.idEx.pc c.rs1Val c.rs2Val]
  cases hv : exValue i s.idEx.pc c.rs1Val c.rs2Val with
  | none => simp [exec_ex_of_no_exValue hs hc hv, eq_comm]
  | some r => simp [exec_ex_of_exValue hs hc hv]

/-- Settles O23, by the fault of `div` and of `rem` in EX. -/
theorem divRemTrapOnZero : Obligations.DivRemTrapOnZero := by
  intro rd rs1 rs2 s c hs hc
  constructor <;> simp [exec_ex_fault_iff hs hc, Instr.mnemonic]

/-! ### The fault of each stage of a cycle -/

theorem outcomeOf_eq_fault {α : Type} {e : Except Fault α} {next : α → State} {f : Fault} :
    outcomeOf e next = .fault f ↔ e = .error f := by
  cases e <;> simp

/-- MEM raises what the known instruction in EX_MEM raises (R226 to R229). -/
theorem memStage_fault_iff {s : State} {f : Fault} : memStage s = .fault f ↔
    ∃ c i, s.exMem.content = some c ∧ Holds c.instr i ∧ exec i (atStage .mem s) = .fault f := by
  cases hc : s.exMem.content with
  | none => simp [memStage, memPass, hc]
  | some c =>
    cases hr : c.instr with
    | unknown raw => simp [memStage_of_unknown hc ⟨raw, hr⟩, Holds, hr]
    | known i raw => simp [memStage_of_known hc ⟨raw, hr⟩, Holds, hr]

/-- EX raises what the known instruction in ID_EX raises (R230 to R236). -/
theorem exStage_fault_iff {s : State} {f : Fault} : exStage s = .fault f ↔
    ∃ c i, s.idEx.content = some c ∧ Holds c.instr i ∧ exec i (atStage .ex s) = .fault f := by
  cases hc : s.idEx.content with
  | none => simp [exStage, exZero, hc]
  | some c =>
    cases hr : c.instr with
    | unknown raw => simp [exStage_of_unknown hc ⟨raw, hr⟩, Holds, hr]
    | known i raw => simp [exStage_of_known hc ⟨raw, hr⟩, Holds, hr]

/-- The cause of AddressError (R283). -/
theorem syncMem_error_iff {s : State} {f : Fault} : syncMem s = .error f ↔
    ∃ c i, s.exMem.content = some c ∧ Holds c.instr i ∧ s.dmemBytes < c.aluResult.toNat + 4 ∧
      ((i.mnemonic = .lw ∧ f = .addressError .load c.aluResult s.exMem.pc) ∨
       (i.mnemonic = .sw ∧ f = .addressError .store c.aluResult s.exMem.pc)) := by
  obtain ⟨st, he⟩ := memStage_eq_self s
  rw [← outcomeOf_eq_fault, ← he, memStage_fault_iff]
  refine exists₂_congr fun c i => and_congr_right fun hc => and_congr_right fun _ => ?_
  exact exec_mem_fault_iff (s := atStage .mem s) rfl hc

/-- The cause of DivisionByZero (R284). -/
theorem syncEx_error_iff {s : State} {f : Fault} : syncEx s = .error f ↔
    ∃ c i, s.idEx.content = some c ∧ Holds c.instr i ∧ i.mnemonic ∈ [.div, .rem] ∧ c.rs2Val = 0#32 ∧
      f = .divisionByZero s.idEx.pc := by
  obtain ⟨st, he⟩ := exStage_eq_self s
  rw [← outcomeOf_eq_fault, ← he, exStage_fault_iff]
  refine exists₂_congr fun c i => and_congr_right fun hc => and_congr_right fun _ => ?_
  exact exec_ex_fault_iff (s := atStage .ex s) rfl hc

/-- The cause of MisalignedTarget (R241, R286). -/
theorem syncId_error_iff {s : State} {f : Fault} : syncId s = .error f ↔
    ∃ target, Taken s target ∧ target.toNat % 4 ≠ 0 ∧ f = .misalignedTarget target s.ifId.pc := by
  constructor
  · intro h
    cases hc : s.ifId.content with
    | none => simp [syncId, hc] at h
    | some w =>
      cases hd : decode w with
      | unknown raw => simp [syncId, hc, hd, knownInstr] at h
      | known i raw =>
        have hi := is_of_decode hd
        rw [syncId_of_known hc hi] at h
        dsimp only at h
        split at h
        · split at h <;> cases h
          exact ⟨_, ⟨w, i, hc, hi, ‹_›, rfl⟩, ‹_›, rfl⟩
        · cases h
  · rintro ⟨target, ⟨w, i, hc, hi, htaken, rfl⟩, hal, rfl⟩
    simp only [syncId_of_known hc hi, htaken, hal, if_true, if_false]

/-! ### The fault of a step -/

theorem syncMem_raises_iff {s : State} : (∃ f, syncMem s = .error f) ↔
    ∃ c i, s.exMem.content = some c ∧ Holds c.instr i ∧ s.dmemBytes < c.aluResult.toNat + 4 ∧
      i.mnemonic ∈ [.lw, .sw] := by
  simp only [syncMem_error_iff]
  constructor
  · rintro ⟨f, c, i, hc, hi, hb, ⟨hm, -⟩ | ⟨hm, -⟩⟩ <;> exact ⟨c, i, hc, hi, hb, by simp [hm]⟩
  · rintro ⟨c, i, hc, hi, hb, hm⟩
    rcases List.mem_pair.1 hm with hlw | hsw
    · exact ⟨_, c, i, hc, hi, hb, .inl ⟨hlw, rfl⟩⟩
    · exact ⟨_, c, i, hc, hi, hb, .inr ⟨hsw, rfl⟩⟩

theorem syncEx_raises_iff {s : State} : (∃ f, syncEx s = .error f) ↔
    ∃ c i, s.idEx.content = some c ∧ Holds c.instr i ∧ i.mnemonic ∈ [.div, .rem] ∧ c.rs2Val = 0#32 := by
  simp only [syncEx_error_iff]
  constructor
  · rintro ⟨f, c, i, hc, hi, hm, hz, -⟩
    exact ⟨c, i, hc, hi, hm, hz⟩
  · rintro ⟨c, i, hc, hi, hm, hz⟩
    exact ⟨_, c, i, hc, hi, hm, hz, rfl⟩

/-- The cycle reports the first raise in the order MEM, EX, ID (R288). -/
theorem syncCycle_eq_fault_iff {s : State} {f : Fault} : syncCycle s = .fault f ↔
    syncMem s = .error f ∨ ((¬ ∃ g, syncMem s = .error g) ∧
      (syncEx s = .error f ∨ ((¬ ∃ g, syncEx s = .error g) ∧ syncId s = .error f))) := by
  unfold syncCycle
  cases syncMem s with
  | error g => simp
  | ok m =>
    cases syncEx s with
    | error g => simp
    | ok x => cases syncId s <;> simp

/-- Settles O46: a step is the synchronous cycle, whose stages raise for the three causes. -/
theorem faultCausesAndPriority : Obligations.FaultCausesAndPriority := by
  intro s f hclear
  rw [stepIsSynchronousCycle s hclear, syncCycle_eq_fault_iff, syncMem_raises_iff, syncEx_raises_iff, syncMem_error_iff,
    syncEx_error_iff, syncId_error_iff]

/-! ### The latch -/

theorem step_of_latch_set {s : State} {f : Fault} (h : s.fault = some f) : step s = .fault f := by
  simp only [step, cycle, h, raise]

theorem clock_of_fault {s : State} {f : Fault} (h : step s = .fault f) : clock s = latchFault s f := by
  simp only [clock, h]

theorem clock_of_next {s t : State} (h : step s = .next t) : clock s = t := by
  simp only [clock, h]

/-- Once the latch is set the clock changes nothing (R263). -/
theorem clock_latchFault (s : State) (f : Fault) : clock (latchFault s f) = latchFault s f :=
  clock_of_fault (step_of_latch_set (latchFault_fault s f))

/-- Settles O48: a faulting cycle leaves the latched state, which is terminal. -/
theorem faultLatchIsTerminal : Obligations.FaultLatchIsTerminal := by
  refine ⟨fun s f h => ?_, fun s f b h => ?_, fun s t b h => ⟨clock_of_next h, ?_⟩⟩
  · rw [clock_of_fault h]
    exact ⟨rfl, step_of_latch_set (latchFault_fault s f), clock_latchFault s f⟩
  · simp only [hostStep, h]
  · simp only [hostStep, h]

end Sys2Proof.Machine
end

section
/-! PROOFS. No forwarding and no interlock. Each synchronous definition of the write port, ID and IF is determined by the
fields it may read: the write port by MEM_WB, the operands by that port and the registers, ID by IF_ID and the operands, IF
by `pc` and the program. No lemma here has a hypothesis on ID_EX, EX_MEM or memory. -/

namespace Sys2Proof.Machine

/-- The write port depends on MEM_WB alone (R223). -/
theorem writePort_congr {s s' : State} (hwb : s.memWb = s'.memWb) :
    rfWe s = rfWe s' ∧ rfWaddr s = rfWaddr s' ∧ rfWdata s = rfWdata s' := by
  unfold rfWe rfWaddr rfWdata
  rw [hwb]
  exact ⟨rfl, rfl, rfl⟩

/-- WB leaves the same registers, whatever older results are still in ID_EX and EX_MEM (R223). -/
theorem step_regs_congr {s s' t t' : State} (hregs : s.regs = s'.regs) (hwb : s.memWb = s'.memWb)
    (h : step s = .next t) (h' : step s' = .next t') : t.regs = t'.regs := by
  obtain ⟨hwe, hwaddr, hwdata⟩ := writePort_congr hwb
  rw [(step_effect h).regs, (step_effect h').regs, hwe, hwaddr, hwdata, hregs]

/-- The bypass of R239 is from MEM_WB only: an operand of ID depends on that slot and the registers. -/
theorem syncOperand_congr {s s' : State} (hregs : s.regs = s'.regs) (hwb : s.memWb = s'.memWb) :
    syncOperand s = syncOperand s' := by
  obtain ⟨hwe, hwaddr, hwdata⟩ := writePort_congr hwb
  funext r
  cases r with
  | none => rfl
  | some r => simp only [syncOperand, rfRead, hwe, hwaddr, hwdata, hregs]

/-- ID depends on IF_ID and its operands: it never waits for an older instruction (R237 to R241, R317). -/
theorem syncId_congr {s s' : State} (hif : s.ifId = s'.ifId) (hoperand : syncOperand s = syncOperand s') :
    syncId s = syncId s' := by
  unfold syncId
  rw [hif, hoperand]

/-- IF depends on `pc`, the program and the transfer ID takes (R243 to R246). -/
theorem syncIf_congr {s s' : State} (hpc : s.pc = s'.pc) (himem : s.imem = s'.imem) : syncIf s = syncIf s' := by
  funext target
  unfold syncIf
  rw [hpc, himem]

/-- Settles O57: both states give ID the same operands, so ID answers both with one ID_EX and one transfer, and IF follows
that transfer. -/
theorem noForwarding : Obligations.NoForwarding := by
  intro s s' t t' hregs hpc hif hwb himem h h'
  obtain ⟨target, -, -, hid, hifId, hnext⟩ := step_sync h
  obtain ⟨target', -, -, hid', hifId', hnext'⟩ := step_sync h'
  have hsame : (t.idEx, target) = (t'.idEx, target') := by
    rw [syncId_congr hif (syncOperand_congr hregs hwb), hid'] at hid
    exact (Except.ok.inj hid).symm
  obtain ⟨hidEx, rfl⟩ := Prod.mk.inj hsame
  have hfetch := syncIf_congr hpc himem
  exact ⟨step_regs_congr hregs hwb h h', hidEx, by rw [hifId, hifId', hfetch], by rw [hnext, hnext', hfetch]⟩

end Sys2Proof.Machine
end
